-- ==== Sys2Proof/Word.lean ====
section
/-! DEFINITION. The word, byte and register-index types of CORE, and the two readings of a word
(spec 00_scope.md R5): every register, address and pc value is a 32-bit vector, memory holds bytes,
and a register index field has five bits, so it names exactly the 32 registers (R71). -/

namespace Sys2Proof

/-- A 32-bit value: a register's contents, an address, a pc value, an instruction word (R5, XLEN = 32 in R4). -/
abbrev Word := BitVec 32

/-- One byte of memory or of the console stream (R27, R29). -/
abbrev Byte := BitVec 8

/-- A register index, 0 to 31 (R20, R71). -/
abbrev RegIdx := BitVec 5

/-- `s32(v)` of R5: the two's-complement signed reading. -/
abbrev s32 (v : Word) : Int := v.toInt

/-- `u32(n)` of R5: the 32-bit value `n mod 2^32` of any integer. -/
abbrev u32 (n : Int) : Word := BitVec.ofInt 32 n

end Sys2Proof
end

