-- ==== Sys2Proof/Machine/Flags.lean ====
section
/-! DEFINITION. Comparisons. CORE has no flags and no condition codes (spec 10_state.md R30): a comparison writes 0 or
1 to a general register or decides a branch directly from two registers. -/

namespace Sys2Proof.Machine

/-- `a = b`: BEQ (R151). -/
def cmpEq (a b : Word) : Bool := a == b
/-- `a != b`: BNE (R152). -/
def cmpNe (a b : Word) : Bool := !(a == b)
/-- `s32(a) < s32(b)`: SLT, SLTI, BLT (R114, R132, R153). -/
def cmpLt (a b : Word) : Bool := decide (s32 a < s32 b)
/-- `s32(a) >= s32(b)`: BGE (R154). -/
def cmpGe (a b : Word) : Bool := decide (s32 b ≤ s32 a)
/-- `a < b` of the unsigned readings: SLTU, SLTIU, BLTU (R115, R133, R155). -/
def cmpLtu (a b : Word) : Bool := decide (a.toNat < b.toNat)
/-- `a >= b` of the unsigned readings: BGEU (R156). -/
def cmpGeu (a b : Word) : Bool := decide (b.toNat ≤ a.toNat)

/-- The value a comparison writes: exactly 1 or 0 (R114). -/
def boolWord (b : Bool) : Word := if b then 0x00000001#32 else 0x00000000#32

end Sys2Proof.Machine
end

