-- ==== Sys2Proof/Syntax.lean ====
section
/-! DEFINITION. The 42 instructions of CORE (spec 30_encoding.md R85), one constructor per row of
spec/opcode_table.json, in the table's order. An operand is the field an encoding holds: a register index of five bits,
a 12-bit I or S immediate before sign-extension (R78, R79), a 5-bit shift count (R83), a 20-bit upper immediate (R81),
and a branch or jump offset as the byte offset with its bit 0 (13 bits in R80, 21 bits in R82). -/

namespace Sys2Proof

/-- The decoded instruction. Fields the dispatcher does not examine (JALR's funct3, everything under SYSTEM but the
opcode, R90) are not operands. -/
inductive Instr where
  /-- ADD: add (R111). -/
  | add (rd rs1 rs2 : RegIdx)
  /-- SUB: subtract (R112). -/
  | sub (rd rs1 rs2 : RegIdx)
  /-- SLL: shift left logical (R113). -/
  | sll (rd rs1 rs2 : RegIdx)
  /-- SLT: set if less than, signed (R114). -/
  | slt (rd rs1 rs2 : RegIdx)
  /-- SLTU: set if less than, unsigned (R115). -/
  | sltu (rd rs1 rs2 : RegIdx)
  /-- XOR: bitwise exclusive or (R116). -/
  | xor (rd rs1 rs2 : RegIdx)
  /-- SRL: shift right logical (R117). -/
  | srl (rd rs1 rs2 : RegIdx)
  /-- SRA: shift right arithmetic (R118). -/
  | sra (rd rs1 rs2 : RegIdx)
  /-- OR: bitwise or (R119). -/
  | or (rd rs1 rs2 : RegIdx)
  /-- AND: bitwise and (R120). -/
  | and (rd rs1 rs2 : RegIdx)
  /-- MUL: multiply, low word (R121). -/
  | mul (rd rs1 rs2 : RegIdx)
  /-- MULH: multiply, high word, signed by signed (R122). -/
  | mulh (rd rs1 rs2 : RegIdx)
  /-- DIV: signed divide (R123). -/
  | div (rd rs1 rs2 : RegIdx)
  /-- REM: signed remainder (R124). -/
  | rem (rd rs1 rs2 : RegIdx)
  /-- ADDI: add immediate (R131). -/
  | addi (rd rs1 : RegIdx) (imm : BitVec 12)
  /-- SLTI: set if less than immediate, signed (R132). -/
  | slti (rd rs1 : RegIdx) (imm : BitVec 12)
  /-- SLTIU: set if less than immediate, unsigned (R133). -/
  | sltiu (rd rs1 : RegIdx) (imm : BitVec 12)
  /-- XORI: exclusive or immediate (R134). -/
  | xori (rd rs1 : RegIdx) (imm : BitVec 12)
  /-- ORI: or immediate (R135). -/
  | ori (rd rs1 : RegIdx) (imm : BitVec 12)
  /-- ANDI: and immediate (R136). -/
  | andi (rd rs1 : RegIdx) (imm : BitVec 12)
  /-- SLLI: shift left logical immediate (R137). -/
  | slli (rd rs1 : RegIdx) (shamt : BitVec 5)
  /-- SRLI: shift right logical immediate (R138). -/
  | srli (rd rs1 : RegIdx) (shamt : BitVec 5)
  /-- SRAI: shift right arithmetic immediate (R139). -/
  | srai (rd rs1 : RegIdx) (shamt : BitVec 5)
  /-- LB: load byte, signed (R172). -/
  | lb (rd rs1 : RegIdx) (imm : BitVec 12)
  /-- LH: load half-word, signed (R173). -/
  | lh (rd rs1 : RegIdx) (imm : BitVec 12)
  /-- LW: load word (R174). -/
  | lw (rd rs1 : RegIdx) (imm : BitVec 12)
  /-- LBU: load byte, unsigned (R175). -/
  | lbu (rd rs1 : RegIdx) (imm : BitVec 12)
  /-- LHU: load half-word, unsigned (R176). -/
  | lhu (rd rs1 : RegIdx) (imm : BitVec 12)
  /-- SB: store byte (R177). -/
  | sb (rs1 rs2 : RegIdx) (imm : BitVec 12)
  /-- SH: store half-word (R178). -/
  | sh (rs1 rs2 : RegIdx) (imm : BitVec 12)
  /-- SW: store word (R179). -/
  | sw (rs1 rs2 : RegIdx) (imm : BitVec 12)
  /-- BEQ: branch if equal (R151). -/
  | beq (rs1 rs2 : RegIdx) (off : BitVec 13)
  /-- BNE: branch if not equal (R152). -/
  | bne (rs1 rs2 : RegIdx) (off : BitVec 13)
  /-- BLT: branch if less than, signed (R153). -/
  | blt (rs1 rs2 : RegIdx) (off : BitVec 13)
  /-- BGE: branch if greater or equal, signed (R154). -/
  | bge (rs1 rs2 : RegIdx) (off : BitVec 13)
  /-- BLTU: branch if less than, unsigned (R155). -/
  | bltu (rs1 rs2 : RegIdx) (off : BitVec 13)
  /-- BGEU: branch if greater or equal, unsigned (R156). -/
  | bgeu (rs1 rs2 : RegIdx) (off : BitVec 13)
  /-- JAL: jump and link (R159). -/
  | jal (rd : RegIdx) (off : BitVec 21)
  /-- JALR: jump and link register (R160). -/
  | jalr (rd rs1 : RegIdx) (imm : BitVec 12)
  /-- LUI: load upper immediate (R161). -/
  | lui (rd : RegIdx) (imm20 : BitVec 20)
  /-- AUIPC: add upper immediate to pc (R162). -/
  | auipc (rd : RegIdx) (imm20 : BitVec 20)
  /-- ECALL: environment call (R190). -/
  | ecall
deriving DecidableEq, Repr

/-- The destination register an instruction names, if it has one (10_state.md R22). -/
def Instr.dest : Instr → Option RegIdx
  | .add rd _ _ | .sub rd _ _ | .sll rd _ _ | .slt rd _ _ | .sltu rd _ _ | .xor rd _ _ | .srl rd _ _ => some rd
  | .sra rd _ _ | .or rd _ _ | .and rd _ _ | .mul rd _ _ | .mulh rd _ _ | .div rd _ _ | .rem rd _ _ => some rd
  | .addi rd _ _ | .slti rd _ _ | .sltiu rd _ _ | .xori rd _ _ | .ori rd _ _ | .andi rd _ _ => some rd
  | .slli rd _ _ | .srli rd _ _ | .srai rd _ _ => some rd
  | .lb rd _ _ | .lh rd _ _ | .lw rd _ _ | .lbu rd _ _ | .lhu rd _ _ => some rd
  | .jal rd _ | .jalr rd _ _ | .lui rd _ | .auipc rd _ => some rd
  | .sb _ _ _ | .sh _ _ _ | .sw _ _ _ => none
  | .beq _ _ _ | .bne _ _ _ | .blt _ _ _ | .bge _ _ _ | .bltu _ _ _ | .bgeu _ _ _ => none
  | .ecall => none

end Sys2Proof
end

