-- ==== Sys2Proof/WellFormed.lean ====
section
/-! DEFINITION. Which instruction terms an encoding can hold: bit 0 of a branch or jump byte offset is not stored
(spec 30_encoding.md R80, R82), so a term with an odd offset is ill-formed. Every other operand's width is in its type.
`exec` still answers on an ill-formed term, with the fault that 43_control_flow.md R158 gives an odd offset. -/

namespace Sys2Proof

/-- A branch offset an encoding can hold: even (R80). -/
def offBOk (off : BitVec 13) : Bool := off.getLsbD 0 == false

/-- A jump offset an encoding can hold: even (R82). -/
def offJOk (off : BitVec 21) : Bool := off.getLsbD 0 == false

/-- The instruction term is one that some word decodes to. -/
def Instr.wf : Instr → Bool
  | .add _ _ _ | .sub _ _ _ | .sll _ _ _ | .slt _ _ _ | .sltu _ _ _ | .xor _ _ _ | .srl _ _ _ => true
  | .sra _ _ _ | .or _ _ _ | .and _ _ _ | .mul _ _ _ | .mulh _ _ _ | .div _ _ _ | .rem _ _ _ => true
  | .addi _ _ _ | .slti _ _ _ | .sltiu _ _ _ | .xori _ _ _ | .ori _ _ _ | .andi _ _ _ => true
  | .slli _ _ _ | .srli _ _ _ | .srai _ _ _ => true
  | .lb _ _ _ | .lh _ _ _ | .lw _ _ _ | .lbu _ _ _ | .lhu _ _ _ => true
  | .sb _ _ _ | .sh _ _ _ | .sw _ _ _ => true
  | .beq _ _ off => offBOk off
  | .bne _ _ off => offBOk off
  | .blt _ _ off => offBOk off
  | .bge _ _ off => offBOk off
  | .bltu _ _ off => offBOk off
  | .bgeu _ _ off => offBOk off
  | .jal _ off => offJOk off
  | .jalr _ _ _ | .lui _ _ | .auipc _ _ | .ecall => true

end Sys2Proof
end

