-- ==== Sys2Proof/Decode.lean ====
section
/-! DEFINITION. Instruction words: byte order, fields, immediates, the decoder and the encoder, from spec
30_encoding.md R70 to R91. The field layout and every opcode, funct3 and funct7 number are the spec's decisions D1 and
D2, taken by it from the standard RISC-V encoding. `decode` is total and names each reason for which a word is not one
of the 42 instructions; `encode` is written from the same tables. -/

namespace Sys2Proof

/-! ## Byte order (R48) -/

/-- The value of a little-endian byte string: the first byte is the least significant (R48). -/
def leWord : List Byte → Word
  | [] => 0#32
  | b :: bs => (leWord bs <<< 8) ||| b.setWidth 32

/-- The low `n` bytes of a value, least significant first (R44, R48). -/
def leBytes : Nat → Word → List Byte
  | 0, _ => []
  | n + 1, v => v.setWidth 8 :: leBytes n (v >>> 8)

/-! ## Fields (R71) and immediates (R78 to R83) -/

/-- `w[6:0]`. -/
def opcodeOf (w : Word) : BitVec 7 := w.extractLsb' 0 7
/-- `w[11:7]`. -/
def rdOf (w : Word) : RegIdx := w.extractLsb' 7 5
/-- `w[14:12]`. -/
def funct3Of (w : Word) : BitVec 3 := w.extractLsb' 12 3
/-- `w[19:15]`. -/
def rs1Of (w : Word) : RegIdx := w.extractLsb' 15 5
/-- `w[24:20]`. -/
def rs2Of (w : Word) : RegIdx := w.extractLsb' 20 5
/-- `w[31:25]`. -/
def funct7Of (w : Word) : BitVec 7 := w.extractLsb' 25 7
/-- `shamt = w[24:20]` (R83). -/
def shamtOf (w : Word) : BitVec 5 := w.extractLsb' 20 5

/-- The stored I immediate `w[31:20]` (R73). -/
def iField (w : Word) : BitVec 12 := w.extractLsb' 20 12
/-- The stored S immediate, `w[31:25]` above `w[11:7]` (R74). -/
def sField (w : Word) : BitVec 12 := w.extractLsb' 25 7 ++ w.extractLsb' 7 5
/-- The branch byte offset with its bit 0, which is not stored: `w[31]`, `w[7]`, `w[30:25]`, `w[11:8]`, 0 (R75, R80). -/
def bField (w : Word) : BitVec 13 :=
  w.extractLsb' 31 1 ++ w.extractLsb' 7 1 ++ w.extractLsb' 25 6 ++ w.extractLsb' 8 4 ++ 0#1
/-- The upper immediate `w[31:12]` (R76). -/
def uField (w : Word) : BitVec 20 := w.extractLsb' 12 20
/-- The jump byte offset with its bit 0, which is not stored: `w[31]`, `w[19:12]`, `w[20]`, `w[30:21]`, 0 (R77, R82). -/
def jField (w : Word) : BitVec 21 :=
  w.extractLsb' 31 1 ++ w.extractLsb' 12 8 ++ w.extractLsb' 20 1 ++ w.extractLsb' 21 10 ++ 0#1

/-- `sext_N` of R6. -/
def sext {n : Nat} (v : BitVec n) : Word := v.signExtend 32
/-- `zext_N` of R6. -/
def zext {n : Nat} (v : BitVec n) : Word := v.setWidth 32

/-- `immU`: the field in bits 31..12, zeros below (R81). -/
def upperImm (imm20 : BitVec 20) : Word := imm20 ++ 0#12

/-! ## The decoded-instruction record (R84) -/

/-- The format variants, `X` for an opcode that is not recognised (R84). -/
inductive Format where
  | R | I | S | B | U | J | X
deriving DecidableEq, Repr

/-- The ten recognised major opcodes (R85). -/
inductive Opcode where
  | op | load | opImm | jalr | system | store | branch | jal | lui | auipc
deriving DecidableEq, Repr

/-- The opcode numbers of R85 (D2). -/
def Opcode.bits : Opcode → BitVec 7
  | .op => 0b0110011#7
  | .load => 0b0000011#7
  | .opImm => 0b0010011#7
  | .jalr => 0b1100111#7
  | .system => 0b1110011#7
  | .store => 0b0100011#7
  | .branch => 0b1100011#7
  | .jal => 0b1101111#7
  | .lui => 0b0110111#7
  | .auipc => 0b0010111#7

/-- The recognised opcode a field holds, if it is one (R85, R102). -/
def Opcode.ofBits (b : BitVec 7) : Option Opcode :=
  match b with
  | 0b0110011#7 => some .op
  | 0b0000011#7 => some .load
  | 0b0010011#7 => some .opImm
  | 0b1100111#7 => some .jalr
  | 0b1110011#7 => some .system
  | 0b0100011#7 => some .store
  | 0b1100011#7 => some .branch
  | 0b1101111#7 => some .jal
  | 0b0110111#7 => some .lui
  | 0b0010111#7 => some .auipc
  | _ => none

/-- The format each opcode uses (R85). -/
def Opcode.format : Opcode → Format
  | .op => .R
  | .load | .opImm | .jalr | .system => .I
  | .store => .S
  | .branch => .B
  | .lui | .auipc => .U
  | .jal => .J

/-- The record `d = Decode(w)` of R84. -/
structure DecodedRecord where
  word : Word
  opcode : BitVec 7
  rd : RegIdx
  funct3 : BitVec 3
  rs1 : RegIdx
  rs2 : RegIdx
  funct7 : BitVec 7
  fmt : Format
  imm : Word
deriving DecidableEq, Repr

/-- `d.fmt` of R84. -/
def formatOf (w : Word) : Format :=
  match Opcode.ofBits (opcodeOf w) with
  | some o => o.format
  | none => .X

/-- `d.imm` of R84: the immediate of the word's format, R78 to R82. -/
def immOf (w : Word) : Word :=
  match formatOf w with
  | .I => sext (iField w)
  | .S => sext (sField w)
  | .B => sext (bField w)
  | .U => upperImm (uField w)
  | .J => sext (jField w)
  | .R | .X => 0#32

/-- `Decode` of R84: total on all words, never faulting. -/
def decodeRecord (w : Word) : DecodedRecord where
  word := w
  opcode := opcodeOf w
  rd := rdOf w
  funct3 := funct3Of w
  rs1 := rs1Of w
  rs2 := rs2Of w
  funct7 := funct7Of w
  fmt := formatOf w
  imm := immOf w

/-! ## The decoder: which of the 42 instructions a word is (R85 to R90) -/

/-- Why a byte string or word is not an instruction of this hardware (R89). -/
inductive DecodeError where
  /-- fewer than four bytes: every instruction is one 32-bit word (R70) -/
  | truncated
  /-- R89 (a), R103: the opcode field is not one of the ten -/
  | unrecognisedOpcode
  /-- R89 (b), R125: opcode OP with a (funct7, funct3) pair outside R86 -/
  | unrecognisedOperation
  /-- R89 (c), R140: opcode OP-IMM with a reserved shift type -/
  | reservedShift
  /-- R89 (d), R180: opcode LOAD with funct3 `011`, `110` or `111` -/
  | unrecognisedLoadWidth
  /-- R89 (d), R180: opcode STORE with funct3 `011` to `111` -/
  | unrecognisedStoreWidth
  /-- R89 (e), R157: opcode BRANCH with funct3 `010` or `011` -/
  | unrecognisedComparison
deriving DecidableEq, Repr

/-- The minor map of opcode OP (R86). -/
def decodeOp (funct7 : BitVec 7) (funct3 : BitVec 3) (rd rs1 rs2 : RegIdx) : Except DecodeError Instr :=
  match funct7, funct3 with
  | 0b0000000#7, 0b000#3 => .ok (.add rd rs1 rs2)
  | 0b0100000#7, 0b000#3 => .ok (.sub rd rs1 rs2)
  | 0b0000000#7, 0b001#3 => .ok (.sll rd rs1 rs2)
  | 0b0000000#7, 0b010#3 => .ok (.slt rd rs1 rs2)
  | 0b0000000#7, 0b011#3 => .ok (.sltu rd rs1 rs2)
  | 0b0000000#7, 0b100#3 => .ok (.xor rd rs1 rs2)
  | 0b0000000#7, 0b101#3 => .ok (.srl rd rs1 rs2)
  | 0b0100000#7, 0b101#3 => .ok (.sra rd rs1 rs2)
  | 0b0000000#7, 0b110#3 => .ok (.or rd rs1 rs2)
  | 0b0000000#7, 0b111#3 => .ok (.and rd rs1 rs2)
  | 0b0000001#7, 0b000#3 => .ok (.mul rd rs1 rs2)
  | 0b0000001#7, 0b001#3 => .ok (.mulh rd rs1 rs2)
  | 0b0000001#7, 0b100#3 => .ok (.div rd rs1 rs2)
  | 0b0000001#7, 0b110#3 => .ok (.rem rd rs1 rs2)
  | _, _ => .error .unrecognisedOperation

/-- The minor map of opcode OP-IMM (R87); for the shifts the upper seven bits are `shtype` (R83). -/
def decodeOpImm (shtype : BitVec 7) (funct3 : BitVec 3) (rd rs1 : RegIdx) (imm : BitVec 12) (shamt : BitVec 5) :
    Except DecodeError Instr :=
  match funct3 with
  | 0b000#3 => .ok (.addi rd rs1 imm)
  | 0b010#3 => .ok (.slti rd rs1 imm)
  | 0b011#3 => .ok (.sltiu rd rs1 imm)
  | 0b100#3 => .ok (.xori rd rs1 imm)
  | 0b110#3 => .ok (.ori rd rs1 imm)
  | 0b111#3 => .ok (.andi rd rs1 imm)
  | 0b001#3 => if shtype = 0b0000000#7 then .ok (.slli rd rs1 shamt) else .error .reservedShift
  | _ =>
    if shtype = 0b0000000#7 then .ok (.srli rd rs1 shamt)
    else if shtype = 0b0100000#7 then .ok (.srai rd rs1 shamt)
    else .error .reservedShift

/-- The minor map of LOAD (R88). -/
def decodeLoad (funct3 : BitVec 3) (rd rs1 : RegIdx) (imm : BitVec 12) : Except DecodeError Instr :=
  match funct3 with
  | 0b000#3 => .ok (.lb rd rs1 imm)
  | 0b001#3 => .ok (.lh rd rs1 imm)
  | 0b010#3 => .ok (.lw rd rs1 imm)
  | 0b100#3 => .ok (.lbu rd rs1 imm)
  | 0b101#3 => .ok (.lhu rd rs1 imm)
  | _ => .error .unrecognisedLoadWidth

/-- The minor map of STORE (R88). -/
def decodeStore (funct3 : BitVec 3) (rs1 rs2 : RegIdx) (imm : BitVec 12) : Except DecodeError Instr :=
  match funct3 with
  | 0b000#3 => .ok (.sb rs1 rs2 imm)
  | 0b001#3 => .ok (.sh rs1 rs2 imm)
  | 0b010#3 => .ok (.sw rs1 rs2 imm)
  | _ => .error .unrecognisedStoreWidth

/-- The minor map of BRANCH (R88). -/
def decodeBranch (funct3 : BitVec 3) (rs1 rs2 : RegIdx) (off : BitVec 13) : Except DecodeError Instr :=
  match funct3 with
  | 0b000#3 => .ok (.beq rs1 rs2 off)
  | 0b001#3 => .ok (.bne rs1 rs2 off)
  | 0b100#3 => .ok (.blt rs1 rs2 off)
  | 0b101#3 => .ok (.bge rs1 rs2 off)
  | 0b110#3 => .ok (.bltu rs1 rs2 off)
  | 0b111#3 => .ok (.bgeu rs1 rs2 off)
  | _ => .error .unrecognisedComparison

/-- The instruction a word is, by the dispatcher's case on the opcode field (R102) and each handler's selector. JALR and
SYSTEM examine no field beyond the opcode (R90, R197). -/
def decode (w : Word) : Except DecodeError Instr :=
  match Opcode.ofBits (opcodeOf w) with
  | some .op => decodeOp (funct7Of w) (funct3Of w) (rdOf w) (rs1Of w) (rs2Of w)
  | some .load => decodeLoad (funct3Of w) (rdOf w) (rs1Of w) (iField w)
  | some .opImm => decodeOpImm (funct7Of w) (funct3Of w) (rdOf w) (rs1Of w) (iField w) (shamtOf w)
  | some .jalr => .ok (.jalr (rdOf w) (rs1Of w) (iField w))
  | some .system => .ok .ecall
  | some .store => decodeStore (funct3Of w) (rs1Of w) (rs2Of w) (sField w)
  | some .branch => decodeBranch (funct3Of w) (rs1Of w) (rs2Of w) (bField w)
  | some .jal => .ok (.jal (rdOf w) (jField w))
  | some .lui => .ok (.lui (rdOf w) (uField w))
  | some .auipc => .ok (.auipc (rdOf w) (uField w))
  | none => .error .unrecognisedOpcode

/-- The first instruction of a byte string and the bytes after it: every instruction is four bytes (R70). -/
def decodeBytes : List Byte → Except DecodeError (Instr × List Byte)
  | b0 :: b1 :: b2 :: b3 :: rest =>
    match decode (leWord [b0, b1, b2, b3]) with
    | .ok i => .ok (i, rest)
    | .error e => .error e
  | _ => .error .truncated

/-! ## The encoder (R72 to R77, R83, R86 to R88) -/

/-- R format (R72). -/
def rWord (funct7 : BitVec 7) (rs2 rs1 : RegIdx) (funct3 : BitVec 3) (rd : RegIdx) (o : Opcode) : Word :=
  funct7 ++ rs2 ++ rs1 ++ funct3 ++ rd ++ o.bits

/-- I format (R73). -/
def iWord (imm : BitVec 12) (rs1 : RegIdx) (funct3 : BitVec 3) (rd : RegIdx) (o : Opcode) : Word :=
  imm ++ rs1 ++ funct3 ++ rd ++ o.bits

/-- The shift-immediate form of the I format (R83). -/
def shiftWord (shtype : BitVec 7) (shamt : BitVec 5) (rs1 : RegIdx) (funct3 : BitVec 3) (rd : RegIdx) : Word :=
  shtype ++ shamt ++ rs1 ++ funct3 ++ rd ++ Opcode.opImm.bits

/-- S format (R74). -/
def sWord (imm : BitVec 12) (rs2 rs1 : RegIdx) (funct3 : BitVec 3) : Word :=
  imm.extractLsb' 5 7 ++ rs2 ++ rs1 ++ funct3 ++ imm.extractLsb' 0 5 ++ Opcode.store.bits

/-- B format (R75); bit 0 of the offset is not stored. -/
def bWord (off : BitVec 13) (rs2 rs1 : RegIdx) (funct3 : BitVec 3) : Word :=
  off.extractLsb' 12 1 ++ off.extractLsb' 5 6 ++ rs2 ++ rs1 ++ funct3 ++ off.extractLsb' 1 4 ++
    off.extractLsb' 11 1 ++ Opcode.branch.bits

/-- U format (R76). -/
def uWord (imm20 : BitVec 20) (rd : RegIdx) (o : Opcode) : Word := imm20 ++ rd ++ o.bits

/-- J format (R77); bit 0 of the offset is not stored. -/
def jWord (off : BitVec 21) (rd : RegIdx) : Word :=
  off.extractLsb' 20 1 ++ off.extractLsb' 1 10 ++ off.extractLsb' 11 1 ++ off.extractLsb' 12 8 ++ rd ++
    Opcode.jal.bits

/-- The canonical word of an instruction: JALR with funct3 `000` (R160), ECALL as `0x00000073` (R190). -/
def encode : Instr → Word
  | .add rd rs1 rs2 => rWord 0b0000000#7 rs2 rs1 0b000#3 rd .op
  | .sub rd rs1 rs2 => rWord 0b0100000#7 rs2 rs1 0b000#3 rd .op
  | .sll rd rs1 rs2 => rWord 0b0000000#7 rs2 rs1 0b001#3 rd .op
  | .slt rd rs1 rs2 => rWord 0b0000000#7 rs2 rs1 0b010#3 rd .op
  | .sltu rd rs1 rs2 => rWord 0b0000000#7 rs2 rs1 0b011#3 rd .op
  | .xor rd rs1 rs2 => rWord 0b0000000#7 rs2 rs1 0b100#3 rd .op
  | .srl rd rs1 rs2 => rWord 0b0000000#7 rs2 rs1 0b101#3 rd .op
  | .sra rd rs1 rs2 => rWord 0b0100000#7 rs2 rs1 0b101#3 rd .op
  | .or rd rs1 rs2 => rWord 0b0000000#7 rs2 rs1 0b110#3 rd .op
  | .and rd rs1 rs2 => rWord 0b0000000#7 rs2 rs1 0b111#3 rd .op
  | .mul rd rs1 rs2 => rWord 0b0000001#7 rs2 rs1 0b000#3 rd .op
  | .mulh rd rs1 rs2 => rWord 0b0000001#7 rs2 rs1 0b001#3 rd .op
  | .div rd rs1 rs2 => rWord 0b0000001#7 rs2 rs1 0b100#3 rd .op
  | .rem rd rs1 rs2 => rWord 0b0000001#7 rs2 rs1 0b110#3 rd .op
  | .addi rd rs1 imm => iWord imm rs1 0b000#3 rd .opImm
  | .slti rd rs1 imm => iWord imm rs1 0b010#3 rd .opImm
  | .sltiu rd rs1 imm => iWord imm rs1 0b011#3 rd .opImm
  | .xori rd rs1 imm => iWord imm rs1 0b100#3 rd .opImm
  | .ori rd rs1 imm => iWord imm rs1 0b110#3 rd .opImm
  | .andi rd rs1 imm => iWord imm rs1 0b111#3 rd .opImm
  | .slli rd rs1 shamt => shiftWord 0b0000000#7 shamt rs1 0b001#3 rd
  | .srli rd rs1 shamt => shiftWord 0b0000000#7 shamt rs1 0b101#3 rd
  | .srai rd rs1 shamt => shiftWord 0b0100000#7 shamt rs1 0b101#3 rd
  | .lb rd rs1 imm => iWord imm rs1 0b000#3 rd .load
  | .lh rd rs1 imm => iWord imm rs1 0b001#3 rd .load
  | .lw rd rs1 imm => iWord imm rs1 0b010#3 rd .load
  | .lbu rd rs1 imm => iWord imm rs1 0b100#3 rd .load
  | .lhu rd rs1 imm => iWord imm rs1 0b101#3 rd .load
  | .sb rs1 rs2 imm => sWord imm rs2 rs1 0b000#3
  | .sh rs1 rs2 imm => sWord imm rs2 rs1 0b001#3
  | .sw rs1 rs2 imm => sWord imm rs2 rs1 0b010#3
  | .beq rs1 rs2 off => bWord off rs2 rs1 0b000#3
  | .bne rs1 rs2 off => bWord off rs2 rs1 0b001#3
  | .blt rs1 rs2 off => bWord off rs2 rs1 0b100#3
  | .bge rs1 rs2 off => bWord off rs2 rs1 0b101#3
  | .bltu rs1 rs2 off => bWord off rs2 rs1 0b110#3
  | .bgeu rs1 rs2 off => bWord off rs2 rs1 0b111#3
  | .jal rd off => jWord off rd
  | .jalr rd rs1 imm => iWord imm rs1 0b000#3 rd .jalr
  | .lui rd imm20 => uWord imm20 rd .lui
  | .auipc rd imm20 => uWord imm20 rd .auipc
  | .ecall => iWord 0b000000000000#12 0#5 0b000#3 0#5 .system

/-- The bytes of an instruction as memory holds them (R70, R48). -/
def encodeBytes (i : Instr) : List Byte := leBytes 4 (encode i)

/-! ## The table's numbering -/

/-- The 32-bit word of a table row's `nbits` bits, every bit above them zero. -/
def tableWord (nbits w : Nat) : Word := BitVec.ofNat 32 (w % 2 ^ nbits)

/-- What the decoder reads from a word numbered as spec/opcode_table.json numbers it, laid out in memory order. -/
def decodeTableWord (nbits w : Nat) : Option Instr :=
  match decodeBytes (leBytes 4 (tableWord nbits w)) with
  | .ok (i, _) => some i
  | .error _ => none

end Sys2Proof
end

