-- ==== Sys2Proof/Config.lean ====
section
/-! DEFINITION. The parameters of CORE (spec 00_scope.md R4), as one record of plain data, the form memory
contents are held in, and the constants the spec decides (RESET_PC). A machine carries its parameters in
`State.cfg`, which no step writes, so that a statement over every state is a statement over every choice of the OPEN
parameters (notes/assumptions/1.md). No free value is needed: the spec states a result for every operand. -/

namespace Sys2Proof

/-- Memory contents as a list of (address, byte) pairs in one canonical form, `Memory.wf`. -/
abbrev Memory := List Host.Cell

/-- What an address that the list does not name reads as.
DESIGN CHOICE, unsafe (notes/assumptions/4.md): the spec leaves MEM_INIT open (R231, D10). -/
def Memory.unlistedByte : Byte := 0#8

/-- The canonical form: addresses strictly rising, no entry that an unlisted address would read as anyway. -/
abbrev Memory.wf (m : Memory) : Prop :=
  m.Pairwise (fun c d => c.1 < d.1) ∧ ∀ c ∈ m, c.2 ≠ Memory.unlistedByte

/-- The parameters of R4 that the source does not fix. -/
structure Config where
  /-- `MEM_SIZE`: the number of bytes of memory, OPEN (D4). -/
  memSize : Nat
  /-- `LSU_ENFORCE_ALIGN`: whether loads and stores assert the alignment flag (D5, R46). -/
  enforceAlign : Bool
  /-- `SYSCALL_NUM_REG`: the "syscall number" register, OPEN (D7). -/
  syscallNumReg : RegIdx
  /-- `SYSCALL_ARG_REG`: the "argument" register, OPEN (D7). -/
  syscallArgReg : RegIdx
  /-- `EXIT_NOTICE`: the bytes syscall 10 emits, OPEN (D9). -/
  exitNotice : List Byte
  /-- `MEM_INIT`: the memory contents at reset, OPEN (D10). -/
  memInit : Memory
deriving DecidableEq, Repr

/-- The constraints R4 puts on the parameters; MEM_INIT is a function on `[0, MEM_SIZE)`, so its list is
canonical and names no address at or past the bound. -/
abbrev Config.wf (c : Config) : Prop :=
  c.memSize % 4 = 0 ∧ 104 ≤ c.memSize ∧ c.memSize ≤ 4294967296 ∧
  c.syscallNumReg ≠ 0#5 ∧ c.syscallArgReg ≠ 0#5 ∧ c.syscallNumReg ≠ c.syscallArgReg ∧
  Memory.wf c.memInit ∧ ∀ cell ∈ c.memInit, cell.1 < c.memSize

/-- `RESET_PC` (R4, decided by D10). -/
def Config.resetPc : Word := 0x00000000#32

/-- The parameter values `State.reset` runs under: the ones 95_test_vectors.md uses, an empty EXIT_NOTICE and an
empty MEM_INIT. DESIGN CHOICE, unsafe (notes/assumptions/2.md, 3.md, 4.md): the spec leaves all but the alignment
flag OPEN. -/
def Config.testVectors : Config where
  memSize := 0x00100000
  enforceAlign := true
  syscallNumReg := 10#5
  syscallArgReg := 11#5
  exitNotice := []
  memInit := []

end Sys2Proof
end

