-- ==== Sys2Proof/Machine/State.lean ====
section
/-! DEFINITION. The state of CORE as plain data (spec 10_state.md R20 to R35), the reasons a step can stop, and the
state after reset (R34, 70_reset_and_hazards.md R230). A fault of the hardware is no stop of the model: it is a next
state whose halt status says FAULTED (R28, R209). -/

namespace Sys2Proof.Machine

/-- The halt status's first field (R28). -/
inductive Status where
  /-- `RUNNING` -/
  | running
  /-- `EXITED`: halted with success -/
  | exited
  /-- `FAULTED`: halted with failure -/
  | faulted
deriving DecidableEq, Repr

/-- The fault codes of 60_exceptions.md R206, by name; `Cause.code` gives the numbers. -/
inductive Cause where
  /-- code 0: not faulted -/
  | none
  /-- code 1 (R201): unrecognised opcode or selector; `info` holds the instruction word -/
  | invalidInstruction
  /-- code 2 (R202): bad address of a load or a fetch; `info` holds the address -/
  | invalidRead
  /-- code 3 (R203): bad address of a store; `info` holds the address -/
  | invalidWrite
  /-- code 4 (R204): control transfer to an address that is no multiple of 4; `info` holds the target -/
  | misalignedTarget
  /-- code 5 (R205): syscall number outside 1, 4, 10, 11; `info` holds the number -/
  | unknownSyscall
deriving DecidableEq, Repr

/-- The whole state of the machine (R33: R20, R24, R27, R28, R29), and the parameters it runs under. -/
structure State where
  /-- `x[0]` to `x[31]` (R20); read and written through `State.readReg` and `State.writeReg` only (R21). -/
  regs : Vector Word 32
  /-- The address of the instruction being executed (R24). -/
  pc : Word
  /-- The bytes of memory (R27), in the canonical form of `Memory.wf`. -/
  mem : Memory
  /-- The halt status (R28). -/
  status : Status
  /-- The fault code, none while not faulted (R28). -/
  cause : Cause
  /-- What the fault records, 0 while not faulted (R28). -/
  info : Word
  /-- The console stream, oldest byte first (R29). -/
  out : List Byte
  /-- The parameters of R4: the model's own field, which no step writes (notes/assumptions/1.md). -/
  cfg : Config
deriving DecidableEq, Repr

/-- Why a step of the model stops. Raised by `step` alone; no meaning of an instruction stops. -/
inductive Fault where
  /-- Raised by `step` when the status is not RUNNING: a halted machine has no step (40_dispatch.md R105). Safe: the
  hardware does nothing there either, until reset. -/
  | halted
deriving DecidableEq, Repr

/-- Why an instruction has no meaning in the model. -/
inductive Refusal where
  /-- Raised by `exec` alone, for an instruction whose meaning is not written yet. Safe. No instruction is left so. -/
  | notModelled (mnemonic : String)
deriving DecidableEq, Repr

/-- How an instruction or a step ends. -/
abbrev Result := Host.Outcome State Fault Refusal

/-- The state after reset under the given parameters (R34, R230). -/
def State.resetWith (c : Config) : State where
  regs := Vector.replicate 32 0x00000000#32
  pc := Config.resetPc
  mem := c.memInit
  status := .running
  cause := .none
  info := 0x00000000#32
  out := []
  cfg := c

/-- The state after reset under the parameter values of 95_test_vectors.md (notes/assumptions/2.md, 3.md, 4.md). -/
def State.reset : State := State.resetWith Config.testVectors

end Sys2Proof.Machine
end

