-- ==== Sys2Proof/Machine/Ops.lean ====
section
/-! DEFINITION. The named operations over the state: register read and write (spec 10_state.md R21), bytes of memory,
the load and store primitives with their check (20_memory.md R42 to R46), the pc update (R26), the console (R29),
taking a fault and exiting (60_exceptions.md R209, R212), and reset as a host action (R230). -/

namespace Sys2Proof.Machine

/-! ## Registers -/

/-- `x[i]`: register 0 reads 0 always (R21). -/
def State.readReg (s : State) (r : RegIdx) : Word :=
  if r = 0#5 then 0x00000000#32 else s.regs[r.toNat]'r.isLt

/-- `x[i] <- v`: a write to register 0 has no effect (R21). -/
def State.writeReg (r : RegIdx) (v : Word) (s : State) : State :=
  if r = 0#5 then s else { s with regs := s.regs.set r.toNat v r.isLt }

/-! ## The program counter -/

/-- `pc <- t`. -/
def State.setPc (t : Word) (s : State) : State := { s with pc := t }

/-- `u32(pc + 4)` (R26). -/
def State.nextPc (s : State) : Word := s.pc + 4#32

/-- `pc <- u32(pc + 4)`: the sequential update (R26). -/
def State.advance (s : State) : State := s.setPc s.nextPc

/-! ## Bytes of memory -/

/-- `mem[a]` of a memory in list form. -/
def readByte : Memory → Nat → Byte
  | [], _ => Memory.unlistedByte
  | (k, b) :: m, a => if k = a then b else readByte m a

/-- `mem[a] <- v`, keeping the canonical form: writing what an unlisted address reads as removes the entry. -/
def writeByte (a : Nat) (v : Byte) : Memory → Memory
  | [] => if v = Memory.unlistedByte then [] else [(a, v)]
  | (k, b) :: m =>
    if a < k then
      if v = Memory.unlistedByte then (k, b) :: m else (a, v) :: (k, b) :: m
    else if a = k then
      if v = Memory.unlistedByte then m else (k, v) :: m
    else (k, b) :: writeByte a v m

/-- The `n` bytes from address `a` up, lowest address first. -/
def readBytes (m : Memory) (a : Nat) : Nat → List Byte
  | 0 => []
  | n + 1 => readByte m a :: readBytes m (a + 1) n

/-- Write the bytes from address `a` up, lowest address first. -/
def writeBytes : Nat → List Byte → Memory → Memory
  | _, [], m => m
  | a, b :: bs, m => writeBytes (a + 1) bs (writeByte a b m)

/-- One byte of the machine's memory. -/
def State.readMem (s : State) (a : Nat) : Byte := readByte s.mem a

/-! ## Faults and exit -/

/-- What `raise` records: a fault kind and its datum (R209). -/
structure Raised where
  cause : Cause
  info : Word
deriving DecidableEq, Repr

/-- The numeric fault codes (R206). -/
def Cause.code : Cause → Nat
  | .none => 0
  | .invalidInstruction => 1
  | .invalidRead => 2
  | .invalidWrite => 3
  | .misalignedTarget => 4
  | .unknownSyscall => 5

/-- Taking a fault, the one operation for all of them: status FAULTED, the cause and its datum, and nothing else (R209).
No pc is saved, no mode changes and control goes nowhere; there is no return from a fault (R211), so no operation for
one. -/
def State.raise (f : Raised) (s : State) : State :=
  { s with status := .faulted, cause := f.cause, info := f.info }

/-- `halt Exit`: status EXITED, and nothing else (R212). -/
def State.haltExit (s : State) : State := { s with status := .exited }

/-- `Emit(bs)`: append to the console stream (R6, R29). -/
def State.emit (bs : List Byte) (s : State) : State := { s with out := s.out ++ bs }

/-! ## The load and store primitives -/

/-- The access widths (R35, R50). -/
inductive Width where
  | byte | half | word
deriving DecidableEq, Repr

/-- The number of bytes a width moves, which is also the modulus alignment asks for (R46). -/
def Width.bytes : Width → Nat
  | .byte => 1
  | .half => 2
  | .word => 4

/-- `Valid(addr, n, enforce)` of R42; the sum in clause (b) does not wrap. -/
def validAccess (memSize : Nat) (addr : Word) (n : Nat) (enforce : Bool) : Bool :=
  decide (addr.toNat < memSize) && decide (addr.toNat + n ≤ memSize) && (!enforce || decide (addr.toNat % n = 0))

/-- `MemRead(addr, n)` of R43: the fault, or the little-endian value of the bytes, zero-extended. -/
def State.memRead (s : State) (addr : Word) (w : Width) (enforce : Bool) : Except Raised Word :=
  if validAccess s.cfg.memSize addr w.bytes enforce then .ok (leWord (readBytes s.mem addr.toNat w.bytes))
  else .error { cause := .invalidRead, info := addr }

/-- `MemWrite(addr, n, v)` of R44: the fault, with no byte written (R45), or the state after the low bytes of `v` are
stored little-endian. -/
def State.memWrite (s : State) (addr : Word) (w : Width) (v : Word) (enforce : Bool) : Except Raised State :=
  if validAccess s.cfg.memSize addr w.bytes enforce then
    .ok { s with mem := writeBytes addr.toNat (leBytes w.bytes v) s.mem }
  else .error { cause := .invalidWrite, info := addr }

/-! ## Fetch -/

/-- `Fetch(state) = MemRead(pc, 4)` with alignment not enforced (40_dispatch.md R101, R46). -/
def fetch (s : State) : Except Raised Word := s.memRead s.pc .word false

/-! ## Ends of an instruction -/

/-- The instruction completes with a register write and the sequential pc update (R110, R130). -/
def State.finish (rd : RegIdx) (v : Word) (s : State) : Result := .next (s.writeReg rd v).advance

/-- The instruction ends with a fault: a next state, halted. -/
def State.fail (f : Raised) (s : State) : Result := .next (s.raise f)

/-! ## Reset as a host action -/

/-- Reset applied in any state, running or halted: every piece of state takes its reset value under the machine's
parameters, nothing survives (R230). -/
def State.applyReset (s : State) : State := State.resetWith s.cfg

end Sys2Proof.Machine
end

