-- ==== Sys2Proof/Machine/Operands.lean ====
section
/-! DEFINITION. Operand forms: the one addressing mode (spec 44_load_store.md R170), the shift count of a register
operand (41_alu_register.md R113), and the targets of control transfers (43_control_flow.md R150, R159, R160). Every
sum wraps modulo 2^32 (D20). -/

namespace Sys2Proof.Machine

/-- `ea = u32(x[rs1] + sext_12(imm))`, of loads and stores alike (R170). -/
def effAddr (s : State) (rs1 : RegIdx) (imm : BitVec 12) : Word := s.readReg rs1 + sext imm

/-- The shift count of a register operand: its low five bits, unsigned (R113, D16). -/
def shiftCount (b : Word) : Nat := (b.extractLsb' 0 5).toNat

/-- `u32(pc + offB)`: relative to the address of the branch itself (R150). -/
def branchTarget (s : State) (off : BitVec 13) : Word := s.pc + sext off

/-- `u32(pc + offJ)` (R159). -/
def jumpTarget (s : State) (off : BitVec 21) : Word := s.pc + sext off

/-- `u32(x[rs1] + immI)`: the full sum, bit 0 is not cleared (R160, conflict C4). -/
def jumpRegTarget (s : State) (rs1 : RegIdx) (imm : BitVec 12) : Word := s.readReg rs1 + sext imm

/-- The alignment test of every control transfer (R158). -/
def alignedTarget (t : Word) : Bool := decide (t.toNat % 4 = 0)

end Sys2Proof.Machine
end

