-- ==== Sys2Proof/Machine/Alu.lean ====
section
/-! DEFINITION. What the ALU computes (spec 41_alu_register.md R111 to R124, R126), and the two shared forms of its
instructions, register-register (R110) and register-immediate (R130). -/

namespace Sys2Proof.Machine

/-! ## Results -/

/-- ADD, ADDI (R111, R131): wraps modulo 2^32. -/
def aluAdd (a b : Word) : Word := a + b
/-- SUB (R112). -/
def aluSub (a b : Word) : Word := a - b
/-- SLT, SLTI (R114, R132). -/
def aluSlt (a b : Word) : Word := boolWord (cmpLt a b)
/-- SLTU, SLTIU (R115, R133). -/
def aluSltu (a b : Word) : Word := boolWord (cmpLtu a b)
/-- XOR, XORI (R116, R134). -/
def aluXor (a b : Word) : Word := a ^^^ b
/-- OR, ORI (R119, R135). -/
def aluOr (a b : Word) : Word := a ||| b
/-- AND, ANDI (R120, R136). -/
def aluAnd (a b : Word) : Word := a &&& b
/-- SLL, SLLI (R113, R137): zeros enter at the right. -/
def aluSll (a : Word) (count : Nat) : Word := a <<< count
/-- SRL, SRLI (R117, R138): zeros enter at the left. -/
def aluSrl (a : Word) (count : Nat) : Word := a >>> count
/-- SRA, SRAI (R118, R139): copies of bit 31 enter at the left. -/
def aluSra (a : Word) (count : Nat) : Word := a.sshiftRight count
/-- MUL (R121): the low word of the product. -/
def aluMul (a b : Word) : Word := a * b
/-- MULH (R122): bits 63..32 of the exact signed product. -/
def aluMulh (a b : Word) : Word := u32 (s32 a * s32 b / 4294967296)
/-- DIV (R123): rounds toward zero; the two corners have the values D13 gives them. -/
def aluDiv (a b : Word) : Word :=
  if s32 b = 0 then u32 (-1)
  else if s32 a = -2147483648 ∧ s32 b = -1 then u32 (-2147483648)
  else u32 (Int.tdiv (s32 a) (s32 b))
/-- REM (R124): the sign of the dividend; the two corners have the values D13 gives them. -/
def aluRem (a b : Word) : Word :=
  if s32 b = 0 then u32 (s32 a)
  else if s32 a = -2147483648 ∧ s32 b = -1 then u32 0
  else u32 (s32 a - s32 b * Int.tdiv (s32 a) (s32 b))

/-! ## Shared forms -/

/-- `x[rd] <- f(x[rs1], x[rs2]); pc <- u32(pc + 4)` (R110). -/
def opReg (f : Word → Word → Word) (rd rs1 rs2 : RegIdx) (s : State) : Result :=
  s.finish rd (f (s.readReg rs1) (s.readReg rs2))

/-- `x[rd] <- f(x[rs1], count of x[rs2]); pc <- u32(pc + 4)` (R113). -/
def opShift (f : Word → Nat → Word) (rd rs1 rs2 : RegIdx) (s : State) : Result :=
  s.finish rd (f (s.readReg rs1) (shiftCount (s.readReg rs2)))

/-- `x[rd] <- f(x[rs1], immI); pc <- u32(pc + 4)` (R130). -/
def opImm (f : Word → Word → Word) (rd rs1 : RegIdx) (imm : BitVec 12) (s : State) : Result :=
  s.finish rd (f (s.readReg rs1) (sext imm))

/-- `x[rd] <- f(x[rs1], shamt); pc <- u32(pc + 4)` (R137 to R139). -/
def opShiftImm (f : Word → Nat → Word) (rd rs1 : RegIdx) (shamt : BitVec 5) (s : State) : Result :=
  s.finish rd (f (s.readReg rs1) shamt.toNat)

end Sys2Proof.Machine
end

