-- ==== Sys2Proof/Machine/AluImmediate.lean ====
section
/-! DEFINITION. Meanings of the register-immediate ALU instructions, opcode OP-IMM (spec 42_alu_immediate.md R130 to
R141). -/

namespace Sys2Proof.Machine

/-- ADDI (R131). -/
def execAddi (rd rs1 : RegIdx) (imm : BitVec 12) (s : State) : Result := opImm aluAdd rd rs1 imm s

/-- SLTI (R132). -/
def execSlti (rd rs1 : RegIdx) (imm : BitVec 12) (s : State) : Result := opImm aluSlt rd rs1 imm s

/-- SLTIU (R133). -/
def execSltiu (rd rs1 : RegIdx) (imm : BitVec 12) (s : State) : Result := opImm aluSltu rd rs1 imm s

/-- XORI (R134). -/
def execXori (rd rs1 : RegIdx) (imm : BitVec 12) (s : State) : Result := opImm aluXor rd rs1 imm s

/-- ORI (R135). -/
def execOri (rd rs1 : RegIdx) (imm : BitVec 12) (s : State) : Result := opImm aluOr rd rs1 imm s

/-- ANDI (R136). -/
def execAndi (rd rs1 : RegIdx) (imm : BitVec 12) (s : State) : Result := opImm aluAnd rd rs1 imm s

/-- SLLI (R137). -/
def execSlli (rd rs1 : RegIdx) (shamt : BitVec 5) (s : State) : Result := opShiftImm aluSll rd rs1 shamt s

/-- SRLI (R138). -/
def execSrli (rd rs1 : RegIdx) (shamt : BitVec 5) (s : State) : Result := opShiftImm aluSrl rd rs1 shamt s

/-- SRAI (R139). -/
def execSrai (rd rs1 : RegIdx) (shamt : BitVec 5) (s : State) : Result := opShiftImm aluSra rd rs1 shamt s

end Sys2Proof.Machine
end

