-- ==== Sys2Proof/Machine/AluRegister.lean ====
section
/-! DEFINITION. Meanings of the register-register ALU instructions, opcode OP (spec 41_alu_register.md R110 to R127). -/

namespace Sys2Proof.Machine

/-- ADD (R111). -/
def execAdd (rd rs1 rs2 : RegIdx) (s : State) : Result := opReg aluAdd rd rs1 rs2 s

/-- SUB (R112). -/
def execSub (rd rs1 rs2 : RegIdx) (s : State) : Result := opReg aluSub rd rs1 rs2 s

/-- SLL (R113). -/
def execSll (rd rs1 rs2 : RegIdx) (s : State) : Result := opShift aluSll rd rs1 rs2 s

/-- SLT (R114). -/
def execSlt (rd rs1 rs2 : RegIdx) (s : State) : Result := opReg aluSlt rd rs1 rs2 s

/-- SLTU (R115). -/
def execSltu (rd rs1 rs2 : RegIdx) (s : State) : Result := opReg aluSltu rd rs1 rs2 s

/-- XOR (R116). -/
def execXor (rd rs1 rs2 : RegIdx) (s : State) : Result := opReg aluXor rd rs1 rs2 s

/-- SRL (R117). -/
def execSrl (rd rs1 rs2 : RegIdx) (s : State) : Result := opShift aluSrl rd rs1 rs2 s

/-- SRA (R118). -/
def execSra (rd rs1 rs2 : RegIdx) (s : State) : Result := opShift aluSra rd rs1 rs2 s

/-- OR (R119). -/
def execOr (rd rs1 rs2 : RegIdx) (s : State) : Result := opReg aluOr rd rs1 rs2 s

/-- AND (R120). -/
def execAnd (rd rs1 rs2 : RegIdx) (s : State) : Result := opReg aluAnd rd rs1 rs2 s

/-- MUL (R121). -/
def execMul (rd rs1 rs2 : RegIdx) (s : State) : Result := opReg aluMul rd rs1 rs2 s

/-- MULH (R122). -/
def execMulh (rd rs1 rs2 : RegIdx) (s : State) : Result := opReg aluMulh rd rs1 rs2 s

/-- DIV (R123). -/
def execDiv (rd rs1 rs2 : RegIdx) (s : State) : Result := opReg aluDiv rd rs1 rs2 s

/-- REM (R124). -/
def execRem (rd rs1 rs2 : RegIdx) (s : State) : Result := opReg aluRem rd rs1 rs2 s

end Sys2Proof.Machine
end

