-- ==== Sys2Proof/Machine/ControlFlow.lean ====
section
/-! DEFINITION. Meanings of the branches, the jumps and the upper-immediate instructions (spec 43_control_flow.md R150 to
R164): the branch and jump resolver and the pc multiplexer. The handler's defensive opcode check (R163) can never fire,
since `decode` reaches LUI and AUIPC by their opcodes alone, so it is omitted (93_implementation_defined.md U21). -/

namespace Sys2Proof.Machine

/-- `pc <- newpc`, or the misaligned-target fault with nothing committed (R158). -/
def transfer (newpc : Word) (s : State) : Result :=
  if alignedTarget newpc then .next (s.setPc newpc)
  else s.fail { cause := .misalignedTarget, info := newpc }

/-- The six branches: the new pc is selected completely before its alignment is tested (R150). -/
def branch (cond : Word → Word → Bool) (rs1 rs2 : RegIdx) (off : BitVec 13) (s : State) : Result :=
  transfer (if cond (s.readReg rs1) (s.readReg rs2) then branchTarget s off else s.nextPc) s

/-- The two jumps: test the target, write the link, write the pc (R159, R160, conflict C6). -/
def jump (rd : RegIdx) (newpc : Word) (s : State) : Result :=
  if alignedTarget newpc then .next ((s.writeReg rd s.nextPc).setPc newpc)
  else s.fail { cause := .misalignedTarget, info := newpc }

/-- BEQ (R151). -/
def execBeq (rs1 rs2 : RegIdx) (off : BitVec 13) (s : State) : Result := branch cmpEq rs1 rs2 off s

/-- BNE (R152). -/
def execBne (rs1 rs2 : RegIdx) (off : BitVec 13) (s : State) : Result := branch cmpNe rs1 rs2 off s

/-- BLT (R153). -/
def execBlt (rs1 rs2 : RegIdx) (off : BitVec 13) (s : State) : Result := branch cmpLt rs1 rs2 off s

/-- BGE (R154). -/
def execBge (rs1 rs2 : RegIdx) (off : BitVec 13) (s : State) : Result := branch cmpGe rs1 rs2 off s

/-- BLTU (R155). -/
def execBltu (rs1 rs2 : RegIdx) (off : BitVec 13) (s : State) : Result := branch cmpLtu rs1 rs2 off s

/-- BGEU (R156). -/
def execBgeu (rs1 rs2 : RegIdx) (off : BitVec 13) (s : State) : Result := branch cmpGeu rs1 rs2 off s

/-- JAL (R159). -/
def execJal (rd : RegIdx) (off : BitVec 21) (s : State) : Result := jump rd (jumpTarget s off) s

/-- JALR (R160): the target is read before the link is written. -/
def execJalr (rd rs1 : RegIdx) (imm : BitVec 12) (s : State) : Result := jump rd (jumpRegTarget s rs1 imm) s

/-- LUI (R161). -/
def execLui (rd : RegIdx) (imm20 : BitVec 20) (s : State) : Result := s.finish rd (upperImm imm20)

/-- AUIPC (R162): `pc` is the address of the AUIPC itself. -/
def execAuipc (rd : RegIdx) (imm20 : BitVec 20) (s : State) : Result := s.finish rd (s.pc + upperImm imm20)

end Sys2Proof.Machine
end

