-- ==== Sys2Proof/Machine/LoadStore.lean ====
section
/-! DEFINITION. Meanings of the loads and stores (spec 44_load_store.md R170 to R181). -/

namespace Sys2Proof.Machine

/-- A load: address, checked read, extension, register write, pc update (R181). The access is made whatever `rd` is. -/
def load (w : Width) (extend : Word → Word) (rd rs1 : RegIdx) (imm : BitVec 12) (s : State) : Result :=
  match s.memRead (effAddr s rs1 imm) w s.cfg.enforceAlign with
  | .ok v => s.finish rd (extend v)
  | .error f => s.fail f

/-- A store: address, checked write of the low bytes of `x[rs2]`, pc update (R181). -/
def store (w : Width) (rs1 rs2 : RegIdx) (imm : BitVec 12) (s : State) : Result :=
  match s.memWrite (effAddr s rs1 imm) w (s.readReg rs2) s.cfg.enforceAlign with
  | .ok t => .next t.advance
  | .error f => s.fail f

/-- `sext_8(v[7:0])` (R172). -/
def extendByte (v : Word) : Word := sext (v.extractLsb' 0 8)

/-- `sext_16(v[15:0])` (R173). -/
def extendHalf (v : Word) : Word := sext (v.extractLsb' 0 16)

/-- The primitive's result as it is: already zero-extended, or a whole word (R174 to R176). -/
def extendNone (v : Word) : Word := v

/-- LB (R172). -/
def execLb (rd rs1 : RegIdx) (imm : BitVec 12) (s : State) : Result := load .byte extendByte rd rs1 imm s

/-- LH (R173). -/
def execLh (rd rs1 : RegIdx) (imm : BitVec 12) (s : State) : Result := load .half extendHalf rd rs1 imm s

/-- LW (R174). -/
def execLw (rd rs1 : RegIdx) (imm : BitVec 12) (s : State) : Result := load .word extendNone rd rs1 imm s

/-- LBU (R175). -/
def execLbu (rd rs1 : RegIdx) (imm : BitVec 12) (s : State) : Result := load .byte extendNone rd rs1 imm s

/-- LHU (R176). -/
def execLhu (rd rs1 : RegIdx) (imm : BitVec 12) (s : State) : Result := load .half extendNone rd rs1 imm s

/-- SB (R177). -/
def execSb (rs1 rs2 : RegIdx) (imm : BitVec 12) (s : State) : Result := store .byte rs1 rs2 imm s

/-- SH (R178). -/
def execSh (rs1 rs2 : RegIdx) (imm : BitVec 12) (s : State) : Result := store .half rs1 rs2 imm s

/-- SW (R179). -/
def execSw (rs1 rs2 : RegIdx) (imm : BitVec 12) (s : State) : Result := store .word rs1 rs2 imm s

end Sys2Proof.Machine
end

