-- ==== Sys2Proof/Machine/Syscall.lean ====
section
/-! DEFINITION. The syscall dispatch gate: the meaning of ECALL (spec 45_syscall.md R190 to R197). -/

namespace Sys2Proof.Machine

/-- The decimal digits of `n`, most significant first, with at most `fuel` of them. -/
def decimalDigits : Nat → Nat → List Byte
  | 0, _ => []
  | fuel + 1, n =>
    if n < 10 then [BitVec.ofNat 8 (0x30 + n)]
    else decimalDigits fuel (n / 10) ++ [BitVec.ofNat 8 (0x30 + n % 10)]

/-- `DecimalSigned(v)`: the minimal ASCII decimal spelling of `s32(v)` (R191, D8); ten digits hold any magnitude. -/
def decimalSigned (v : Word) : List Byte :=
  if s32 v < 0 then 0x2D#8 :: decimalDigits 10 (s32 v).natAbs else decimalDigits 10 (s32 v).natAbs

/-- The scan of R192 over at most `fuel` bytes from address `p`: it stops before the first zero byte. -/
def scanString (m : Memory) : Nat → Nat → List Byte
  | 0, _ => []
  | fuel + 1, p => if readByte m p = 0x00#8 then [] else readByte m p :: scanString m fuel (p + 1)

/-- `CString(v)` (R192): the scan has `MEM_SIZE - v` bytes to go, so it stops at the bound; it cannot fault (R52). -/
def State.cString (s : State) (v : Word) : List Byte := scanString s.mem (s.cfg.memSize - v.toNat) v.toNat

/-- ECALL (R190): the whole 32-bit value of the syscall-number register selects the operation. -/
def execEcall (s : State) : Result :=
  if s.readReg s.cfg.syscallNumReg = 1#32 then
    .next (s.emit (decimalSigned (s.readReg s.cfg.syscallArgReg))).advance
  else if s.readReg s.cfg.syscallNumReg = 4#32 then
    .next (s.emit (s.cString (s.readReg s.cfg.syscallArgReg))).advance
  else if s.readReg s.cfg.syscallNumReg = 10#32 then
    .next (s.emit s.cfg.exitNotice).haltExit
  else if s.readReg s.cfg.syscallNumReg = 11#32 then
    .next (s.emit [(s.readReg s.cfg.syscallArgReg).extractLsb' 0 8]).advance
  else
    s.fail { cause := .unknownSyscall, info := s.readReg s.cfg.syscallNumReg }

end Sys2Proof.Machine
end

