-- ==== Sys2Proof/Machine/Step.lean ====
section
/-! DEFINITION. One step of the machine (spec 40_dispatch.md R100, R101, R103, R105): fetch, decode, execute. The fetch,
the decoder and the meanings stand in files of their own; this one only calls them. -/

namespace Sys2Proof.Machine

/-- One step. A halted machine has none (R105); a bad fetch raises InvalidRead(pc) (R101); a word that is no instruction
raises InvalidInstruction(word) (R89, R103); otherwise the instruction executes (R102). -/
def step (s : State) : Host.Outcome State Fault Refusal :=
  if s.status = .running then
    match fetch s with
    | .error f => s.fail f
    | .ok w =>
      match decode w with
      | .error _ => s.fail { cause := .invalidInstruction, info := w }
      | .ok i => exec i s
  else .fault .halted

/-- The state with the word of an opcode-table row's bits stored where the next step fetches: at the pc, four bytes,
little-endian. -/
def State.withFetchWord (s : State) (nbits w : Nat) : State :=
  { s with mem := writeBytes s.pc.toNat (leBytes 4 (tableWord nbits w)) s.mem }

end Sys2Proof.Machine
end

