-- ==== Sys2Proof/Decode/Table.lean ====
section
/-! DEFINITION. The match and mask words of spec/opcode_table.json, row by row (30_encoding.md R86 to R88, R90), for
statements about the decoder and the encoder; neither is written from them. -/

namespace Sys2Proof

/-- A row of the opcode table: a word is the row's instruction when its bits under the mask are the match. -/
structure TableRow where
  mask : Word
  value : Word
deriving DecidableEq, Repr

/-- The word is an encoding of the row's instruction. -/
abbrev TableRow.Matches (row : TableRow) (w : Word) : Prop := w &&& row.mask = row.value

/-- The row of each instruction. -/
def Instr.tableRow : Instr → TableRow
  | .add _ _ _ => ⟨0xFE00707F#32, 0x00000033#32⟩
  | .sub _ _ _ => ⟨0xFE00707F#32, 0x40000033#32⟩
  | .sll _ _ _ => ⟨0xFE00707F#32, 0x00001033#32⟩
  | .slt _ _ _ => ⟨0xFE00707F#32, 0x00002033#32⟩
  | .sltu _ _ _ => ⟨0xFE00707F#32, 0x00003033#32⟩
  | .xor _ _ _ => ⟨0xFE00707F#32, 0x00004033#32⟩
  | .srl _ _ _ => ⟨0xFE00707F#32, 0x00005033#32⟩
  | .sra _ _ _ => ⟨0xFE00707F#32, 0x40005033#32⟩
  | .or _ _ _ => ⟨0xFE00707F#32, 0x00006033#32⟩
  | .and _ _ _ => ⟨0xFE00707F#32, 0x00007033#32⟩
  | .mul _ _ _ => ⟨0xFE00707F#32, 0x02000033#32⟩
  | .mulh _ _ _ => ⟨0xFE00707F#32, 0x02001033#32⟩
  | .div _ _ _ => ⟨0xFE00707F#32, 0x02004033#32⟩
  | .rem _ _ _ => ⟨0xFE00707F#32, 0x02006033#32⟩
  | .addi _ _ _ => ⟨0x0000707F#32, 0x00000013#32⟩
  | .slti _ _ _ => ⟨0x0000707F#32, 0x00002013#32⟩
  | .sltiu _ _ _ => ⟨0x0000707F#32, 0x00003013#32⟩
  | .xori _ _ _ => ⟨0x0000707F#32, 0x00004013#32⟩
  | .ori _ _ _ => ⟨0x0000707F#32, 0x00006013#32⟩
  | .andi _ _ _ => ⟨0x0000707F#32, 0x00007013#32⟩
  | .slli _ _ _ => ⟨0xFE00707F#32, 0x00001013#32⟩
  | .srli _ _ _ => ⟨0xFE00707F#32, 0x00005013#32⟩
  | .srai _ _ _ => ⟨0xFE00707F#32, 0x40005013#32⟩
  | .lb _ _ _ => ⟨0x0000707F#32, 0x00000003#32⟩
  | .lh _ _ _ => ⟨0x0000707F#32, 0x00001003#32⟩
  | .lw _ _ _ => ⟨0x0000707F#32, 0x00002003#32⟩
  | .lbu _ _ _ => ⟨0x0000707F#32, 0x00004003#32⟩
  | .lhu _ _ _ => ⟨0x0000707F#32, 0x00005003#32⟩
  | .sb _ _ _ => ⟨0x0000707F#32, 0x00000023#32⟩
  | .sh _ _ _ => ⟨0x0000707F#32, 0x00001023#32⟩
  | .sw _ _ _ => ⟨0x0000707F#32, 0x00002023#32⟩
  | .beq _ _ _ => ⟨0x0000707F#32, 0x00000063#32⟩
  | .bne _ _ _ => ⟨0x0000707F#32, 0x00001063#32⟩
  | .blt _ _ _ => ⟨0x0000707F#32, 0x00004063#32⟩
  | .bge _ _ _ => ⟨0x0000707F#32, 0x00005063#32⟩
  | .bltu _ _ _ => ⟨0x0000707F#32, 0x00006063#32⟩
  | .bgeu _ _ _ => ⟨0x0000707F#32, 0x00007063#32⟩
  | .jal _ _ => ⟨0x0000007F#32, 0x0000006F#32⟩
  | .jalr _ _ _ => ⟨0x0000007F#32, 0x00000067#32⟩
  | .lui _ _ => ⟨0x0000007F#32, 0x00000037#32⟩
  | .auipc _ _ => ⟨0x0000007F#32, 0x00000017#32⟩
  | .ecall => ⟨0x0000007F#32, 0x00000073#32⟩

/-- The rows under opcode OP (R86). -/
def tableRowsOp : List TableRow :=
  [⟨0xFE00707F#32, 0x00000033#32⟩,
   ⟨0xFE00707F#32, 0x40000033#32⟩,
   ⟨0xFE00707F#32, 0x00001033#32⟩,
   ⟨0xFE00707F#32, 0x00002033#32⟩,
   ⟨0xFE00707F#32, 0x00003033#32⟩,
   ⟨0xFE00707F#32, 0x00004033#32⟩,
   ⟨0xFE00707F#32, 0x00005033#32⟩,
   ⟨0xFE00707F#32, 0x40005033#32⟩,
   ⟨0xFE00707F#32, 0x00006033#32⟩,
   ⟨0xFE00707F#32, 0x00007033#32⟩,
   ⟨0xFE00707F#32, 0x02000033#32⟩,
   ⟨0xFE00707F#32, 0x02001033#32⟩,
   ⟨0xFE00707F#32, 0x02004033#32⟩,
   ⟨0xFE00707F#32, 0x02006033#32⟩]

/-- The rows under opcode OP-IMM (R87). -/
def tableRowsOpImm : List TableRow :=
  [⟨0x0000707F#32, 0x00000013#32⟩,
   ⟨0x0000707F#32, 0x00002013#32⟩,
   ⟨0x0000707F#32, 0x00003013#32⟩,
   ⟨0x0000707F#32, 0x00004013#32⟩,
   ⟨0x0000707F#32, 0x00006013#32⟩,
   ⟨0x0000707F#32, 0x00007013#32⟩,
   ⟨0xFE00707F#32, 0x00001013#32⟩,
   ⟨0xFE00707F#32, 0x00005013#32⟩,
   ⟨0xFE00707F#32, 0x40005013#32⟩]

/-- The rows under LOAD and STORE (R88). -/
def tableRowsMemory : List TableRow :=
  [⟨0x0000707F#32, 0x00000003#32⟩,
   ⟨0x0000707F#32, 0x00001003#32⟩,
   ⟨0x0000707F#32, 0x00002003#32⟩,
   ⟨0x0000707F#32, 0x00004003#32⟩,
   ⟨0x0000707F#32, 0x00005003#32⟩,
   ⟨0x0000707F#32, 0x00000023#32⟩,
   ⟨0x0000707F#32, 0x00001023#32⟩,
   ⟨0x0000707F#32, 0x00002023#32⟩]

/-- The rows under BRANCH (R88), JAL, JALR, LUI, AUIPC and SYSTEM (R90). -/
def tableRowsControl : List TableRow :=
  [⟨0x0000707F#32, 0x00000063#32⟩,
   ⟨0x0000707F#32, 0x00001063#32⟩,
   ⟨0x0000707F#32, 0x00004063#32⟩,
   ⟨0x0000707F#32, 0x00005063#32⟩,
   ⟨0x0000707F#32, 0x00006063#32⟩,
   ⟨0x0000707F#32, 0x00007063#32⟩,
   ⟨0x0000007F#32, 0x0000006F#32⟩,
   ⟨0x0000007F#32, 0x00000067#32⟩,
   ⟨0x0000007F#32, 0x00000037#32⟩,
   ⟨0x0000007F#32, 0x00000017#32⟩,
   ⟨0x0000007F#32, 0x00000073#32⟩]

/-- All 42 rows. -/
def tableRows : List TableRow := tableRowsOp ++ tableRowsOpImm ++ tableRowsMemory ++ tableRowsControl

end Sys2Proof
end

