-- ==== Sys2Proof/Machine/Asm.lean ====
section
/-! DEFINITION. Assembler notation that names instructions of this hardware: the register aliases of spec 10_state.md R23
and the pseudo-instruction expansions of 30_encoding.md R92. Notation only: no rule of the machine depends on it (D22).
A label operand stands here as the byte offset the assembler stores, `label - pc`. -/

namespace Sys2Proof.Machine

/-! ## Register aliases (R23) -/

def Reg.zero : RegIdx := 0#5
def Reg.ra : RegIdx := 1#5
def Reg.sp : RegIdx := 2#5
def Reg.gp : RegIdx := 3#5
def Reg.tp : RegIdx := 4#5
/-- `t0..t2` are x5..x7, `t3..t6` are x28..x31. -/
def Reg.t (k : Fin 7) : RegIdx := if k.val < 3 then BitVec.ofNat 5 (5 + k) else BitVec.ofNat 5 (25 + k)
/-- `s0` (also `fp`) and `s1` are x8 and x9, `s2..s11` are x18..x27. -/
def Reg.s (k : Fin 12) : RegIdx := if k.val < 2 then BitVec.ofNat 5 (8 + k) else BitVec.ofNat 5 (16 + k)
/-- `a0..a7` are x10..x17. -/
def Reg.a (k : Fin 8) : RegIdx := BitVec.ofNat 5 (10 + k)
def Reg.fp : RegIdx := Reg.s 0

/-! ## Pseudo-instructions (R92) -/

/-- The low 12 bits that an `addi` or `jalr` adds back, sign-extended. -/
def loPart (v : Word) : BitVec 12 := v.extractLsb' 0 12

/-- `hi = u32(v - lo)[31:12]`: one more than `v[31:12]` when bit 11 of `v` is 1. -/
def hiPart (v : Word) : BitVec 20 := (v - sext (loPart v)).extractLsb' 12 20

def asmNop : Instr := .addi 0#5 0#5 0#12
def asmMv (rd rs : RegIdx) : Instr := .addi rd rs 0#12
def asmNot (rd rs : RegIdx) : Instr := .xori rd rs (-1#12)
def asmNeg (rd rs : RegIdx) : Instr := .sub rd 0#5 rs
def asmSeqz (rd rs : RegIdx) : Instr := .sltiu rd rs 1#12
def asmSnez (rd rs : RegIdx) : Instr := .sltu rd 0#5 rs
def asmSltz (rd rs : RegIdx) : Instr := .slt rd rs 0#5
def asmSgtz (rd rs : RegIdx) : Instr := .slt rd 0#5 rs
def asmBeqz (rs : RegIdx) (off : BitVec 13) : Instr := .beq rs 0#5 off
def asmBnez (rs : RegIdx) (off : BitVec 13) : Instr := .bne rs 0#5 off
def asmBlez (rs : RegIdx) (off : BitVec 13) : Instr := .bge 0#5 rs off
def asmBgez (rs : RegIdx) (off : BitVec 13) : Instr := .bge rs 0#5 off
def asmBltz (rs : RegIdx) (off : BitVec 13) : Instr := .blt rs 0#5 off
def asmBgtz (rs : RegIdx) (off : BitVec 13) : Instr := .blt 0#5 rs off
def asmBgt (rs rt : RegIdx) (off : BitVec 13) : Instr := .blt rt rs off
def asmBle (rs rt : RegIdx) (off : BitVec 13) : Instr := .bge rt rs off
def asmBgtu (rs rt : RegIdx) (off : BitVec 13) : Instr := .bltu rt rs off
def asmBleu (rs rt : RegIdx) (off : BitVec 13) : Instr := .bgeu rt rs off
def asmJ (off : BitVec 21) : Instr := .jal 0#5 off
def asmJal (off : BitVec 21) : Instr := .jal 1#5 off
def asmJr (rs : RegIdx) : Instr := .jalr 0#5 rs 0#12
def asmJalr (rs : RegIdx) : Instr := .jalr 1#5 rs 0#12
def asmRet : Instr := .jalr 0#5 1#5 0#12

/-- `li rd, v`: one `addi` for a small constant, else `lui` and, when the low part is not 0, `addi`. -/
def asmLi (rd : RegIdx) (v : Word) : List Instr :=
  if -2048 ≤ s32 v ∧ s32 v ≤ 2047 then [.addi rd 0#5 (loPart v)]
  else .lui rd (hiPart v) :: (if loPart v = 0#12 then [] else [.addi rd rd (loPart v)])

/-- `call l`, with `off = l - pc` of its first instruction. -/
def asmCall (off : Word) : List Instr := [.auipc 1#5 (hiPart off), .jalr 1#5 1#5 (loPart off)]

/-- `la rd, sym`, with `off = sym - pc` of its first instruction. -/
def asmLa (rd : RegIdx) (off : Word) : List Instr := [.auipc rd (hiPart off), .addi rd rd (loPart off)]

end Sys2Proof.Machine
end

