-- ==== Sys2Proof/Safety.lean ====
section
/-! DEFINITION. What counts as a good state, how a run ends, what the host sees, and the predicates that statements about
instructions are written with. -/

namespace Sys2Proof.Machine

/-! ## The invariant of every reachable state -/

/-- Memory is in canonical form and names no address at or past the bound (R27). -/
abbrev State.memOk (s : State) : Prop := Memory.wf s.mem ∧ ∀ c ∈ s.mem, c.1 < s.cfg.memSize

/-- `cause` and `info` are 0 while not FAULTED, and a faulted state names its fault (R28). -/
abbrev State.haltOk (s : State) : Prop :=
  (s.status = .faulted → s.cause ≠ .none) ∧ (s.status ≠ .faulted → s.cause = .none ∧ s.info = 0#32)

/-- The parameters meet R4, the pc is a multiple of 4 (R25), memory and the halt status are in order, and cell 0 of the
register file holds zero (R21). -/
abbrev State.Inv (s : State) : Prop :=
  s.cfg.wf ∧ s.pc.toNat % 4 = 0 ∧ s.memOk ∧ s.haltOk ∧ s.regs[0] = 0#32

/-- The states a machine with the given parameters can be in: reset at any time (R230), or one step further (R100). -/
inductive Reachable (c : Config) : State → Prop where
  | reset : Reachable c (State.resetWith c)
  | step {s t : State} : Reachable c s → Machine.step s = .next t → Reachable c t
  | resetAgain {s : State} : Reachable c s → Reachable c s.applyReset

/-! ## The end of a run (R8, R106, R220) -/

/-- How a run ended, in the source's terms: process exit with success, or with failure and its report. -/
inductive RunEnd where
  | success
  | failure (cause : Cause) (info : Word)
deriving DecidableEq, Repr

/-- The end of a halted machine's run; none while it runs. -/
def State.runEnd (s : State) : Option RunEnd :=
  match s.status with
  | .running => none
  | .exited => some .success
  | .faulted => some (.failure s.cause s.info)

/-- The only normal end: a faulted state is never one (R105, R211). -/
abbrev State.endedNormally (s : State) : Prop := s.status = .exited

/-- What the host reads after a halt (R220). -/
structure HostView where
  status : Status
  code : Nat
  info : Word
  regs : List Word
  pc : Word
  mem : Memory
  out : List Byte
deriving DecidableEq, Repr

/-- The host's view: nothing while the machine runs (R220). -/
def State.hostView (s : State) : Option HostView :=
  if s.status = .running then none
  else some
    { status := s.status, code := s.cause.code, info := s.info,
      regs := (List.range 32).map fun r => s.readReg (BitVec.ofNat 5 r),
      pc := s.pc, mem := s.mem, out := s.out }

/-! ## Predicates for statements -/

/-- The word a step of `s` fetches is `w`: the four bytes at the pc are inside memory and spell it, least significant
first (R101). -/
def FetchedWord (s : State) (w : Word) : Prop :=
  s.pc.toNat + 4 ≤ s.cfg.memSize ∧
  w = s.readMem (s.pc.toNat + 3) ++ s.readMem (s.pc.toNat + 2) ++ s.readMem (s.pc.toNat + 1) ++ s.readMem s.pc.toNat

/-- Every register reads as before. -/
def SameRegs (s t : State) : Prop := ∀ r, t.readReg r = s.readReg r

/-- Every byte of memory reads as before. -/
def SameMem (s t : State) : Prop := ∀ a, t.readMem a = s.readMem a

/-- The halt status and the parameters are as before. -/
def SameHalt (s t : State) : Prop := t.status = s.status ∧ t.cause = s.cause ∧ t.info = s.info ∧ t.cfg = s.cfg

/-- `x[rd] <- v; pc <- p` and nothing else: with `rd = 0` no register changes. -/
def WritesReg (s t : State) (rd : RegIdx) (v p : Word) : Prop :=
  (∀ r, t.readReg r = if r = rd ∧ r ≠ 0#5 then v else s.readReg r) ∧
  t.pc = p ∧ SameMem s t ∧ t.out = s.out ∧ SameHalt s t

/-- `pc <- p` and nothing else. -/
def MovesPc (s t : State) (p : Word) : Prop :=
  SameRegs s t ∧ t.pc = p ∧ SameMem s t ∧ t.out = s.out ∧ SameHalt s t

/-- The low `n` bytes of `v` are stored from address `ea` up, `pc <- p`, and nothing else. -/
def StoresBytes (s t : State) (ea : Word) (n : Nat) (v p : Word) : Prop :=
  (∀ a, t.readMem a =
    if ea.toNat ≤ a ∧ a < ea.toNat + n then v.extractLsb' (8 * (a - ea.toNat)) 8 else s.readMem a) ∧
  SameRegs s t ∧ t.pc = p ∧ t.out = s.out ∧ SameHalt s t

/-- The console receives `bs`, `pc <- p`, and nothing else. -/
def Emits (s t : State) (bs : List Byte) (p : Word) : Prop :=
  t.out = s.out ++ bs ∧ SameRegs s t ∧ t.pc = p ∧ SameMem s t ∧ SameHalt s t

/-- The fault is recorded and nothing else changes: no register, no byte of memory, no console byte, not the pc (R209). -/
def RecordsFault (s t : State) (c : Cause) (info : Word) : Prop :=
  t.status = .faulted ∧ t.cause = c ∧ t.info = info ∧
  SameRegs s t ∧ t.pc = s.pc ∧ SameMem s t ∧ t.out = s.out ∧ t.cfg = s.cfg

/-- `Valid(ea, n, LSU_ENFORCE_ALIGN)` of R42, as loads and stores ask it (R46). -/
def AccessOk (s : State) (ea : Word) (n : Nat) : Prop :=
  ea.toNat < s.cfg.memSize ∧ ea.toNat + n ≤ s.cfg.memSize ∧ (s.cfg.enforceAlign = true → ea.toNat % n = 0)

/-- The instruction answers a next state, of which `P` holds. -/
def Completes (i : Instr) (s : State) (P : State → Prop) : Prop := ∃ t, exec i s = .next t ∧ P t

/-- The value a digit string spells, most significant digit first (R191). -/
def decimalValue (ds : List Byte) : Nat := ds.foldl (fun n d => 10 * n + (d.toNat - 0x30)) 0

/-- The finished 32-bit immediate an instruction uses, if its format has one (R78 to R82). -/
def finishedImmediate : Instr → Option Word
  | .addi _ _ imm | .slti _ _ imm | .sltiu _ _ imm | .xori _ _ imm | .ori _ _ imm | .andi _ _ imm => some (sext imm)
  | .lb _ _ imm | .lh _ _ imm | .lw _ _ imm | .lbu _ _ imm | .lhu _ _ imm | .jalr _ _ imm => some (sext imm)
  | .sb _ _ imm | .sh _ _ imm | .sw _ _ imm => some (sext imm)
  | .beq _ _ off | .bne _ _ off | .blt _ _ off | .bge _ _ off | .bltu _ _ off | .bgeu _ _ off => some (sext off)
  | .jal _ off => some (sext off)
  | .lui _ imm20 | .auipc _ imm20 => some (upperImm imm20)
  | .add _ _ _ | .sub _ _ _ | .sll _ _ _ | .slt _ _ _ | .sltu _ _ _ | .xor _ _ _ | .srl _ _ _ => none
  | .sra _ _ _ | .or _ _ _ | .and _ _ _ | .mul _ _ _ | .mulh _ _ _ | .div _ _ _ | .rem _ _ _ => none
  | .slli _ _ _ | .srli _ _ _ | .srai _ _ _ | .ecall => none

/-- A branch on the condition `taken`, from an aligned pc: to `u32(pc + offB)` when taken, with the misaligned-target
fault and nothing else when that is no multiple of 4, and to `u32(pc + 4)` when not taken (R150, R158). -/
def BranchRule (i : Instr) (s : State) (off : BitVec 13) (taken : Prop) : Prop :=
  (taken → (u32 (s.pc.toNat + off.toInt)).toNat % 4 = 0 →
    Completes i s fun t => MovesPc s t (u32 (s.pc.toNat + off.toInt))) ∧
  (taken → (u32 (s.pc.toNat + off.toInt)).toNat % 4 ≠ 0 →
    Completes i s fun t => RecordsFault s t .misalignedTarget (u32 (s.pc.toNat + off.toInt))) ∧
  (¬taken → Completes i s fun t => MovesPc s t (u32 (s.pc.toNat + 4)))

/-- The condition that the selector of a BRANCH word names holds of its two registers (R151 to R156). -/
def BranchTaken (s : State) (w : Word) : Prop :=
  (funct3Of w = 0b000#3 ∧ s.readReg (rs1Of w) = s.readReg (rs2Of w)) ∨
  (funct3Of w = 0b001#3 ∧ s.readReg (rs1Of w) ≠ s.readReg (rs2Of w)) ∨
  (funct3Of w = 0b100#3 ∧ s32 (s.readReg (rs1Of w)) < s32 (s.readReg (rs2Of w))) ∨
  (funct3Of w = 0b101#3 ∧ s32 (s.readReg (rs1Of w)) ≥ s32 (s.readReg (rs2Of w))) ∨
  (funct3Of w = 0b110#3 ∧ (s.readReg (rs1Of w)).toNat < (s.readReg (rs2Of w)).toNat) ∨
  (funct3Of w = 0b111#3 ∧ (s.readReg (rs1Of w)).toNat ≥ (s.readReg (rs2Of w)).toNat)

/-- Execute instructions one after another, each on the state the last one left. -/
def execAll : List Instr → State → Result
  | [], s => .next s
  | i :: is, s =>
    match exec i s with
    | .next t => execAll is t
    | .fault f => .fault f
    | .refused r => .refused r

end Sys2Proof.Machine
end

