-- ==== Sys2Proof/Certificates/Slice0/Obligations.lean ====
section
/-! DEFINITION. The statements about CORE that are given to the provers. Each docstring names the rule or section of the
spec it formalises, and the decision D<n> of 92_eei_decisions.md where the spec marks the content as its own choice. -/

open Sys2Proof Sys2Proof.Machine

/-! ## Encoding -/

/-- Every well-formed instruction is what its canonical word decodes to (30_encoding.md sections 2 to 5; D1, D2). -/
def Obligations.DecodeOfEncode : Prop := ∀ i : Instr, i.wf = true → decode (encode i) = .ok i

/-- The same from bytes in memory order, whatever follows them (30_encoding.md section 1; D1, D3). -/
def Obligations.DecodeOfEncodedBytes : Prop :=
  ∀ (i : Instr) (rest : List Byte), i.wf = true → decodeBytes (encodeBytes i ++ rest) = .ok (i, rest)

/-- The decoder answers only instructions an encoding can hold: branch and jump offsets are even
(30_encoding.md section 3; D1). -/
def Obligations.DecodedInstructionsAreWellFormed : Prop :=
  ∀ (w : Word) (i : Instr), decode w = .ok i → i.wf = true

/-- The other direction: a decodable word is the canonical word of its instruction, up to the fields the hardware does
not examine, JALR's funct3 and everything but the opcode under SYSTEM (30_encoding.md sections 2, 3, 6; D2, D19). -/
def Obligations.EncodeOfDecode : Prop :=
  ∀ (w : Word) (i : Instr), decode w = .ok i →
    (opcodeOf w = 0b1100111#7 → encode i = w &&& 0xFFFF8FFF#32) ∧
    (opcodeOf w = 0b1110011#7 → encode i = 0x00000073#32) ∧
    (opcodeOf w ≠ 0b1100111#7 → opcodeOf w ≠ 0b1110011#7 → encode i = w)

/-- A word decodes exactly when it matches one of the 42 rows of the opcode table (30_encoding.md sections 5 and 6; D2,
D15, D19). -/
def Obligations.DecodableExactlyWhenATableRowMatches : Prop :=
  ∀ w : Word, (∃ i, decode w = .ok i) ↔ ∃ row ∈ tableRows, row.Matches w

/-- A word of each family written out in the spec's worked examples decodes to the instruction it stands for
(41 to 45, the Example lines; D2). -/
def Obligations.WordsOfTheSpecDecode : Prop :=
  decode 0x007302B3#32 = .ok (.add 5#5 6#5 7#5) ∧ decode 0x407352B3#32 = .ok (.sra 5#5 6#5 7#5) ∧
  decode 0xFFF30293#32 = .ok (.addi 5#5 6#5 (-1#12)) ∧ decode 0x41F35293#32 = .ok (.srai 5#5 6#5 31#5) ∧
  decode 0x00831283#32 = .ok (.lh 5#5 6#5 8#12) ∧ decode 0x00732423#32 = .ok (.sw 6#5 7#5 8#12) ∧
  decode 0xFE029CE3#32 = .ok (.bne 5#5 0#5 (-8#13)) ∧ decode 0x020000EF#32 = .ok (.jal 1#5 0x20#21) ∧
  decode 0xFFC282E7#32 = .ok (.jalr 5#5 5#5 (-4#12)) ∧ decode 0x89ABD2B7#32 = .ok (.lui 5#5 0x89ABD#20) ∧
  decode 0x00000073#32 = .ok .ecall

/-- The immediate of the decoded record is the finished immediate of the instruction, so that no handler shifts or
extends again (30_encoding.md sections 3 and 4; D1, conflict C9). -/
def Obligations.RecordHoldsTheFinishedImmediate : Prop :=
  ∀ (w : Word) (i : Instr) (v : Word), decode w = .ok i → finishedImmediate i = some v → (decodeRecord w).imm = v

/-- The signed readings of the five immediates: I and S in -2048..2047, B and J twice a signed stored field, U the upper
20 bits of the word (30_encoding.md section 3; the bit places are the spec's, D1 and D2). -/
def Obligations.ImmediateReadings : Prop :=
  ∀ w : Word,
    (s32 (sext (iField w)) = (w.extractLsb' 20 12).toInt ∧
      -2048 ≤ s32 (sext (iField w)) ∧ s32 (sext (iField w)) ≤ 2047) ∧
    (s32 (sext (sField w)) = (w.extractLsb' 25 7 ++ w.extractLsb' 7 5).toInt ∧
      -2048 ≤ s32 (sext (sField w)) ∧ s32 (sext (sField w)) ≤ 2047) ∧
    (s32 (sext (bField w)) =
        2 * (w.extractLsb' 31 1 ++ w.extractLsb' 7 1 ++ w.extractLsb' 25 6 ++ w.extractLsb' 8 4).toInt ∧
      -4096 ≤ s32 (sext (bField w)) ∧ s32 (sext (bField w)) ≤ 4094) ∧
    upperImm (uField w) = w &&& 0xFFFFF000#32 ∧
    (s32 (sext (jField w)) =
        2 * (w.extractLsb' 31 1 ++ w.extractLsb' 12 8 ++ w.extractLsb' 20 1 ++ w.extractLsb' 21 10).toInt ∧
      -1048576 ≤ s32 (sext (jField w)) ∧ s32 (sext (jField w)) ≤ 1048574)

/-! ## The step -/

/-- A running machine whose pc holds a decodable word executes that instruction, with nothing added around it
(40_dispatch.md, the step and the dispatcher; D3). -/
def Obligations.StepRunsTheDecodedInstruction : Prop :=
  ∀ (s : State) (w : Word) (i : Instr),
    s.status = .running → FetchedWord s w → decode w = .ok i → step s = exec i s

/-- A fetch that touches an address at or past MEM_SIZE raises InvalidRead(pc), and no instruction executes
(40_dispatch.md, fetch; D3). -/
def Obligations.FetchOutsideMemoryFaults : Prop :=
  ∀ s : State, s.status = .running → s.cfg.memSize < s.pc.toNat + 4 →
    ∃ t, step s = .next t ∧ RecordsFault s t .invalidRead s.pc

/-- An instruction placed where the machine fetches is the one the next step runs (20_memory.md section 7,
40_dispatch.md; D3; the placing is the model's, notes/assumptions/5.md). -/
def Obligations.PlacedInstructionRunsNext : Prop :=
  ∀ (s : State) (i : Instr), s.status = .running → Memory.wf s.mem → s.pc.toNat + 4 ≤ s.cfg.memSize →
    i.wf = true →
    step (s.withFetchWord 32 (encode i).toNat) = exec i (s.withFetchWord 32 (encode i).toNat)

/-- A machine that is EXITED or FAULTED has no step and only reset makes it run again; a faulted state is no normal end of a
run (40_dispatch.md R105). A machine that is RUNNING always has a step, whatever its state: execution is total
(00_scope.md R8), a step is defined when the status is RUNNING (40_dispatch.md R100), and a hardware fault is a next state
of the model (DEDUCED, notes/assumptions/6.md). What the end of a faulted run reports is 60_exceptions.md R220, with the
spec's decision D11. -/
def Obligations.StepExistsExactlyWhenRunning : Prop :=
  ∀ s : State,
    (s.status = .running → ∃ t, step s = .next t) ∧
    (s.status = .exited ∨ s.status = .faulted → step s = .fault .halted ∧ s.applyReset.status = .running) ∧
    (s.status = .faulted → ¬s.endedNormally ∧ s.runEnd = some (.failure s.cause s.info))

/-- R103, R125, R157: an opcode outside the ten, an operation selector of OP outside the fourteen, and a branch selector
`010` or `011` raise InvalidInstruction(word), cause code 1, change nothing else, and no step follows. -/
def Obligations.UnrecognisedEncodingsFault : Prop :=
  ∀ (s : State) (w : Word), s.status = .running → FetchedWord s w →
    (opcodeOf w ∉ [0b0110011#7, 0b0000011#7, 0b0010011#7, 0b1100111#7, 0b1110011#7, 0b0100011#7, 0b1100011#7,
        0b1101111#7, 0b0110111#7, 0b0010111#7] ∨
      (opcodeOf w = 0b0110011#7 ∧
        (funct7Of w, funct3Of w) ∉
          [(0b0000000#7, 0b000#3), (0b0100000#7, 0b000#3), (0b0000000#7, 0b001#3), (0b0000000#7, 0b010#3),
           (0b0000000#7, 0b011#3), (0b0000000#7, 0b100#3), (0b0000000#7, 0b101#3), (0b0100000#7, 0b101#3),
           (0b0000000#7, 0b110#3), (0b0000000#7, 0b111#3), (0b0000001#7, 0b000#3), (0b0000001#7, 0b001#3),
           (0b0000001#7, 0b100#3), (0b0000001#7, 0b110#3)]) ∨
      (opcodeOf w = 0b1100011#7 ∧ funct3Of w ∈ [0b010#3, 0b011#3])) →
    ∃ t, step s = .next t ∧ RecordsFault s t .invalidInstruction w ∧ t.cause.code = 1 ∧ step t = .fault .halted

/-- Reserved shift encodings and unrecognised load and store widths raise InvalidInstruction(word) before any address is
used (42_alu_immediate.md section 3, 44_load_store.md section 1; D15, D18). -/
def Obligations.ReservedSelectorsFault : Prop :=
  ∀ (s : State) (w : Word), s.status = .running → FetchedWord s w →
    ((opcodeOf w = 0b0010011#7 ∧ funct3Of w = 0b001#3 ∧ funct7Of w ≠ 0b0000000#7) ∨
      (opcodeOf w = 0b0010011#7 ∧ funct3Of w = 0b101#3 ∧ funct7Of w ∉ [0b0000000#7, 0b0100000#7]) ∨
      (opcodeOf w = 0b0000011#7 ∧ funct3Of w ∈ [0b011#3, 0b110#3, 0b111#3]) ∨
      (opcodeOf w = 0b0100011#7 ∧ funct3Of w ∈ [0b011#3, 0b100#3, 0b101#3, 0b110#3, 0b111#3])) →
    ∃ t, step s = .next t ∧ RecordsFault s t .invalidInstruction w

/-! ## Registers and memory -/

/-- Register 0 always reads 0 and a write to it changes nothing; the other 31 registers are independent cells that read
the last value written (10_state.md section 1). -/
def Obligations.RegisterFileReadsLastWrite : Prop :=
  ∀ (s : State) (d r : RegIdx) (v : Word),
    s.readReg 0#5 = 0#32 ∧ State.writeReg 0#5 v s = s ∧
    (s.writeReg d v).readReg r = if r = d ∧ r ≠ 0#5 then v else s.readReg r

/-- R43 and R44: a valid read gives the little-endian value of the bytes, zero-extended; a valid write stores the low
bytes of the value and leaves every other byte; an invalid one raises InvalidRead or InvalidWrite of the address. That
the last byte must lie inside memory (`addr + bytes ≤ memSize`, R42 clause b) is the spec's own decision, D6; that a write
keeps the canonical form (`Memory.wf`) is about the model's choice of form, DESIGN CHOICE, notes/assumptions/4.md. -/
def Obligations.LoadAndStorePrimitives : Prop :=
  ∀ (s : State) (addr v : Word) (w : Width) (enforce : Bool),
    let valid := addr.toNat < s.cfg.memSize ∧ addr.toNat + w.bytes ≤ s.cfg.memSize ∧
      (enforce = true → addr.toNat % w.bytes = 0)
    (valid → ∃ x, s.memRead addr w enforce = .ok x ∧
      (∀ k, k < w.bytes → x.extractLsb' (8 * k) 8 = s.readMem (addr.toNat + k)) ∧
      ∀ j, 8 * w.bytes ≤ j → x.getLsbD j = false) ∧
    (¬valid → s.memRead addr w enforce = .error ⟨.invalidRead, addr⟩) ∧
    (valid → Memory.wf s.mem →
      ∃ t, s.memWrite addr w v enforce = .ok t ∧ StoresBytes s t addr w.bytes v s.pc ∧ Memory.wf t.mem) ∧
    (¬valid → s.memWrite addr w v enforce = .error ⟨.invalidWrite, addr⟩)

/-- After a word is stored, reads of every narrower width inside it see exactly its bytes (20_memory.md section 4). -/
def Obligations.NarrowReadsOfAStoredWord : Prop :=
  ∀ (s t : State) (a v : Word) (enforce : Bool), s.cfg.wf → Memory.wf s.mem →
    s.memWrite a .word v enforce = .ok t →
    t.memRead a .byte false = .ok (zext (v.extractLsb' 0 8)) ∧
    t.memRead (a + 1#32) .byte false = .ok (zext (v.extractLsb' 8 8)) ∧
    t.memRead (a + 2#32) .byte false = .ok (zext (v.extractLsb' 16 8)) ∧
    t.memRead (a + 3#32) .byte false = .ok (zext (v.extractLsb' 24 8)) ∧
    t.memRead a .half false = .ok (zext (v.extractLsb' 0 16)) ∧
    t.memRead (a + 2#32) .half false = .ok (zext (v.extractLsb' 16 16)) ∧
    t.memRead a .word false = .ok v

/-- With alignment enforced and parameters as R4 asks, an access is valid exactly when it starts inside memory and is
aligned: the bound on the last byte adds nothing (20_memory.md sections 2 and 3; D4, D5, D6). -/
def Obligations.AlignedAccessesNeverStraddleTheBound : Prop :=
  ∀ (s : State) (ea : Word) (w : Width), s.cfg.wf → s.cfg.enforceAlign = true →
    (AccessOk s ea w.bytes ↔ ea.toNat < s.cfg.memSize ∧ ea.toNat % w.bytes = 0)

/-- The one addressing mode: base register plus signed displacement, modulo 2^32 (44_load_store.md section 1; D20). -/
def Obligations.EffectiveAddressWraps : Prop :=
  ∀ (s : State) (rs1 : RegIdx) (imm : BitVec 12),
    effAddr s rs1 imm = u32 ((s.readReg rs1).toNat + imm.toInt)

/-! ## Register-register ALU -/

/-- R111, R112: ADD and SUB, modulo 2^32, for every choice of registers. -/
def Obligations.AddAndSubtract : Prop :=
  (∀ w : Word, opcodeOf w = 0b0110011#7 → funct3Of w = 0b000#3 →
    (funct7Of w = 0b0000000#7 → decode w = .ok (.add (rdOf w) (rs1Of w) (rs2Of w))) ∧
    (funct7Of w = 0b0100000#7 → decode w = .ok (.sub (rdOf w) (rs1Of w) (rs2Of w)))) ∧
  ∀ (s : State) (rd rs1 rs2 : RegIdx),
    Completes (.add rd rs1 rs2) s (fun t =>
      WritesReg s t rd (u32 ((s.readReg rs1).toNat + (s.readReg rs2).toNat)) (s.pc + 4#32)) ∧
    Completes (.sub rd rs1 rs2) s (fun t =>
      WritesReg s t rd (u32 ((s.readReg rs1).toNat - (s.readReg rs2).toNat)) (s.pc + 4#32))

/-- R114, R115: SLT compares the signed readings, SLTU the unsigned ones; the result is exactly 1 or 0. -/
def Obligations.SetLessThan : Prop :=
  (∀ w : Word, opcodeOf w = 0b0110011#7 → funct7Of w = 0b0000000#7 →
    (funct3Of w = 0b010#3 → decode w = .ok (.slt (rdOf w) (rs1Of w) (rs2Of w))) ∧
    (funct3Of w = 0b011#3 → decode w = .ok (.sltu (rdOf w) (rs1Of w) (rs2Of w)))) ∧
  ∀ (s : State) (rd rs1 rs2 : RegIdx),
    Completes (.slt rd rs1 rs2) s (fun t =>
      WritesReg s t rd (if s32 (s.readReg rs1) < s32 (s.readReg rs2) then 1#32 else 0#32) (s.pc + 4#32)) ∧
    Completes (.sltu rd rs1 rs2) s (fun t =>
      WritesReg s t rd (if (s.readReg rs1).toNat < (s.readReg rs2).toNat then 1#32 else 0#32) (s.pc + 4#32))

/-- R116, R119, R120: XOR, OR and AND, bit by bit. -/
def Obligations.BitwiseOperations : Prop :=
  (∀ w : Word, opcodeOf w = 0b0110011#7 → funct7Of w = 0b0000000#7 →
    (funct3Of w = 0b100#3 → decode w = .ok (.xor (rdOf w) (rs1Of w) (rs2Of w))) ∧
    (funct3Of w = 0b110#3 → decode w = .ok (.or (rdOf w) (rs1Of w) (rs2Of w))) ∧
    (funct3Of w = 0b111#3 → decode w = .ok (.and (rdOf w) (rs1Of w) (rs2Of w)))) ∧
  ∀ (s : State) (rd rs1 rs2 : RegIdx) (v : Word),
    ((∀ k, v.getLsbD k = ((s.readReg rs1).getLsbD k != (s.readReg rs2).getLsbD k)) →
      Completes (.xor rd rs1 rs2) s (fun t => WritesReg s t rd v (s.pc + 4#32))) ∧
    ((∀ k, v.getLsbD k = ((s.readReg rs1).getLsbD k || (s.readReg rs2).getLsbD k)) →
      Completes (.or rd rs1 rs2) s (fun t => WritesReg s t rd v (s.pc + 4#32))) ∧
    ((∀ k, v.getLsbD k = ((s.readReg rs1).getLsbD k && (s.readReg rs2).getLsbD k)) →
      Completes (.and rd rs1 rs2) s (fun t => WritesReg s t rd v (s.pc + 4#32)))

/-- SLL, SRL and SRA by the count `x[rs2] mod 32`: multiplication, floor division of the unsigned reading, floor division
of the signed reading by a power of two (41_alu_register.md section 2, SLL, SRL, SRA; the masking of the count is D16). -/
def Obligations.RegisterShifts : Prop :=
  ∀ (s : State) (rd rs1 rs2 : RegIdx),
    let n := (s.readReg rs2).toNat % 32
    Completes (.sll rd rs1 rs2) s (fun t =>
      WritesReg s t rd (u32 ((s.readReg rs1).toNat * 2 ^ n)) (s.pc + 4#32)) ∧
    Completes (.srl rd rs1 rs2) s (fun t =>
      WritesReg s t rd (u32 ((s.readReg rs1).toNat / 2 ^ n)) (s.pc + 4#32)) ∧
    Completes (.sra rd rs1 rs2) s (fun t =>
      WritesReg s t rd (u32 (s32 (s.readReg rs1) / 2 ^ n)) (s.pc + 4#32))

/-- R121: MUL gives the low word of the signed product. -/
def Obligations.MultiplyLowWord : Prop :=
  (∀ w : Word, opcodeOf w = 0b0110011#7 → funct7Of w = 0b0000001#7 → funct3Of w = 0b000#3 →
    decode w = .ok (.mul (rdOf w) (rs1Of w) (rs2Of w))) ∧
  ∀ (s : State) (rd rs1 rs2 : RegIdx),
    Completes (.mul rd rs1 rs2) s (fun t =>
      WritesReg s t rd (u32 (s32 (s.readReg rs1) * s32 (s.readReg rs2))) (s.pc + 4#32))

/-- MULH and MUL of the same operands give the high and the low word of the 64-bit signed product, and the low word is
that of the unsigned product too (41_alu_register.md section 2, MUL and MULH; that MULH exists is D14, the last clause a
derivation of the spec's). -/
def Obligations.MultiplyHighWord : Prop :=
  ∀ (s : State) (rd rs1 rs2 : RegIdx), ∃ hi lo : Word,
    Completes (.mulh rd rs1 rs2) s (fun t => WritesReg s t rd hi (s.pc + 4#32)) ∧
    Completes (.mul rd rs1 rs2) s (fun t => WritesReg s t rd lo (s.pc + 4#32)) ∧
    hi ++ lo = BitVec.ofInt 64 (s32 (s.readReg rs1) * s32 (s.readReg rs2)) ∧
    lo = u32 ((s.readReg rs1).toNat * (s.readReg rs2).toNat)

/-- DIV and REM never fault and give the quotient rounded toward zero and its remainder; by 0 they give -1 and the
dividend, and -2^31 by -1 gives -2^31 and 0 (41_alu_register.md section 2, DIV and REM; the corners and the rounding are
D13). -/
def Obligations.DivideAndRemainder : Prop :=
  ∀ (s : State) (rd rs1 rs2 : RegIdx),
    let a := s32 (s.readReg rs1)
    let b := s32 (s.readReg rs2)
    Completes (.div rd rs1 rs2) s (fun t =>
      WritesReg s t rd (if b = 0 then 0xFFFFFFFF#32 else u32 (Int.tdiv a b)) (s.pc + 4#32)) ∧
    Completes (.rem rd rs1 rs2) s (fun t =>
      WritesReg s t rd (if b = 0 then s.readReg rs1 else u32 (Int.tmod a b)) (s.pc + 4#32))

/-- The dividend is the quotient times the divisor plus the remainder, in every case modulo 2^32 and exactly outside the
two corners; the remainder is smaller than the divisor and has the dividend's sign (41_alu_register.md section 2, REM,
a derivation of the spec's; D13). -/
def Obligations.QuotientAndRemainderRecompose : Prop :=
  ∀ (s : State) (rd rs1 rs2 : RegIdx), ∃ q r : Word,
    let a := s32 (s.readReg rs1)
    let b := s32 (s.readReg rs2)
    Completes (.div rd rs1 rs2) s (fun t => WritesReg s t rd q (s.pc + 4#32)) ∧
    Completes (.rem rd rs1 rs2) s (fun t => WritesReg s t rd r (s.pc + 4#32)) ∧
    s.readReg rs1 = u32 (s32 q * b + s32 r) ∧
    (b ≠ 0 → (s32 r).natAbs < b.natAbs ∧ (0 ≤ a → 0 ≤ s32 r) ∧ (a ≤ 0 → s32 r ≤ 0)) ∧
    (b ≠ 0 → ¬(a = -2147483648 ∧ b = -1) → a = s32 q * b + s32 r)

/-! ## Register-immediate ALU -/

/-- R131, R132, R133: ADDI, SLTI and SLTIU against the sign-extended immediate, which SLTIU then reads as unsigned. -/
def Obligations.ImmediateAddAndCompare : Prop :=
  (∀ w : Word, opcodeOf w = 0b0010011#7 →
    (funct3Of w = 0b000#3 → decode w = .ok (.addi (rdOf w) (rs1Of w) (iField w))) ∧
    (funct3Of w = 0b010#3 → decode w = .ok (.slti (rdOf w) (rs1Of w) (iField w))) ∧
    (funct3Of w = 0b011#3 → decode w = .ok (.sltiu (rdOf w) (rs1Of w) (iField w)))) ∧
  ∀ (s : State) (rd rs1 : RegIdx) (imm : BitVec 12),
    Completes (.addi rd rs1 imm) s (fun t =>
      WritesReg s t rd (u32 ((s.readReg rs1).toNat + imm.toInt)) (s.pc + 4#32)) ∧
    Completes (.slti rd rs1 imm) s (fun t =>
      WritesReg s t rd (if s32 (s.readReg rs1) < imm.toInt then 1#32 else 0#32) (s.pc + 4#32)) ∧
    Completes (.sltiu rd rs1 imm) s (fun t =>
      WritesReg s t rd (if (s.readReg rs1).toNat < (u32 imm.toInt).toNat then 1#32 else 0#32) (s.pc + 4#32))

/-- R134, R135, R136: XORI, ORI and ANDI, bit by bit; bits 31..11 of the immediate are its bit 11. -/
def Obligations.ImmediateBitwise : Prop :=
  (∀ w : Word, opcodeOf w = 0b0010011#7 →
    (funct3Of w = 0b100#3 → decode w = .ok (.xori (rdOf w) (rs1Of w) (iField w))) ∧
    (funct3Of w = 0b110#3 → decode w = .ok (.ori (rdOf w) (rs1Of w) (iField w))) ∧
    (funct3Of w = 0b111#3 → decode w = .ok (.andi (rdOf w) (rs1Of w) (iField w)))) ∧
  ∀ (s : State) (rd rs1 : RegIdx) (imm : BitVec 12) (v : Word),
    ((∀ k, k < 32 → v.getLsbD k = ((s.readReg rs1).getLsbD k != imm.getLsbD (min k 11))) →
      Completes (.xori rd rs1 imm) s (fun t => WritesReg s t rd v (s.pc + 4#32))) ∧
    ((∀ k, k < 32 → v.getLsbD k = ((s.readReg rs1).getLsbD k || imm.getLsbD (min k 11))) →
      Completes (.ori rd rs1 imm) s (fun t => WritesReg s t rd v (s.pc + 4#32))) ∧
    ((∀ k, k < 32 → v.getLsbD k = ((s.readReg rs1).getLsbD k && imm.getLsbD (min k 11))) →
      Completes (.andi rd rs1 imm) s (fun t => WritesReg s t rd v (s.pc + 4#32)))

/-- SLLI, SRLI and SRAI: the count is `w[24:20]`, the kind is the shift type `w[31:25]`, as D15 decides
(42_alu_immediate.md section 2, SLLI, SRLI, SRAI; 30_encoding.md section 3). -/
def Obligations.ImmediateShifts : Prop :=
  (∀ w : Word, opcodeOf w = 0b0010011#7 →
    (funct3Of w = 0b001#3 → funct7Of w = 0b0000000#7 → decode w = .ok (.slli (rdOf w) (rs1Of w) (shamtOf w))) ∧
    (funct3Of w = 0b101#3 → funct7Of w = 0b0000000#7 → decode w = .ok (.srli (rdOf w) (rs1Of w) (shamtOf w))) ∧
    (funct3Of w = 0b101#3 → funct7Of w = 0b0100000#7 → decode w = .ok (.srai (rdOf w) (rs1Of w) (shamtOf w)))) ∧
  ∀ (s : State) (rd rs1 : RegIdx) (shamt : BitVec 5),
    Completes (.slli rd rs1 shamt) s (fun t =>
      WritesReg s t rd (u32 ((s.readReg rs1).toNat * 2 ^ shamt.toNat)) (s.pc + 4#32)) ∧
    Completes (.srli rd rs1 shamt) s (fun t =>
      WritesReg s t rd (u32 ((s.readReg rs1).toNat / 2 ^ shamt.toNat)) (s.pc + 4#32)) ∧
    Completes (.srai rd rs1 shamt) s (fun t =>
      WritesReg s t rd (u32 (s32 (s.readReg rs1) / 2 ^ shamt.toNat)) (s.pc + 4#32))

/-! ## Loads and stores -/

/-- R172, R175: LB and LBU read the byte at `ea` when `ea < MEM_SIZE`, with no alignment requirement, and otherwise raise
InvalidRead(ea) with nothing changed. -/
def Obligations.LoadByte : Prop :=
  (∀ w : Word, opcodeOf w = 0b0000011#7 →
    (funct3Of w = 0b000#3 → decode w = .ok (.lb (rdOf w) (rs1Of w) (iField w))) ∧
    (funct3Of w = 0b100#3 → decode w = .ok (.lbu (rdOf w) (rs1Of w) (iField w)))) ∧
  ∀ (s : State) (rd rs1 : RegIdx) (imm : BitVec 12),
    let ea := u32 ((s.readReg rs1).toNat + imm.toInt)
    (ea.toNat < s.cfg.memSize →
      Completes (.lb rd rs1 imm) s (fun t =>
        WritesReg s t rd (u32 (s.readMem ea.toNat).toInt) (s.pc + 4#32)) ∧
      Completes (.lbu rd rs1 imm) s (fun t =>
        WritesReg s t rd (u32 (s.readMem ea.toNat).toNat) (s.pc + 4#32))) ∧
    (s.cfg.memSize ≤ ea.toNat →
      Completes (.lb rd rs1 imm) s (fun t => RecordsFault s t .invalidRead ea) ∧
      Completes (.lbu rd rs1 imm) s (fun t => RecordsFault s t .invalidRead ea))

/-- LH, LHU and LW: the little-endian value when the access is valid, sign-extended for LH; otherwise InvalidRead(ea) with
nothing changed, whatever `rd` is (44_load_store.md section 1, LH, LHU, LW, and the order of effects; which accesses are
valid is D5 and D6). -/
def Obligations.LoadHalfAndWord : Prop :=
  ∀ (s : State) (rd rs1 : RegIdx) (imm : BitVec 12),
    let ea := effAddr s rs1 imm
    let m := fun k => s.readMem (ea.toNat + k)
    (AccessOk s ea 2 →
      Completes (.lh rd rs1 imm) s (fun t => WritesReg s t rd (u32 (m 1 ++ m 0).toInt) (s.pc + 4#32)) ∧
      Completes (.lhu rd rs1 imm) s (fun t => WritesReg s t rd (u32 (m 1 ++ m 0).toNat) (s.pc + 4#32))) ∧
    (AccessOk s ea 4 →
      Completes (.lw rd rs1 imm) s (fun t => WritesReg s t rd (m 3 ++ m 2 ++ m 1 ++ m 0) (s.pc + 4#32))) ∧
    (¬AccessOk s ea 2 →
      Completes (.lh rd rs1 imm) s (fun t => RecordsFault s t .invalidRead ea) ∧
      Completes (.lhu rd rs1 imm) s (fun t => RecordsFault s t .invalidRead ea)) ∧
    (¬AccessOk s ea 4 → Completes (.lw rd rs1 imm) s (fun t => RecordsFault s t .invalidRead ea))

/-- R177: SB stores the low byte of `x[rs2]` at `ea` when `ea < MEM_SIZE`, every other byte unchanged, and otherwise
raises InvalidWrite(ea) with nothing changed. -/
def Obligations.StoreByte : Prop :=
  (∀ w : Word, opcodeOf w = 0b0100011#7 → funct3Of w = 0b000#3 →
    decode w = .ok (.sb (rs1Of w) (rs2Of w) (sField w))) ∧
  ∀ (s : State) (rs1 rs2 : RegIdx) (imm : BitVec 12), Memory.wf s.mem →
    (u32 ((s.readReg rs1).toNat + imm.toInt)) = effAddr s rs1 imm ∧
    ((effAddr s rs1 imm).toNat < s.cfg.memSize →
      Completes (.sb rs1 rs2 imm) s (fun t =>
        StoresBytes s t (effAddr s rs1 imm) 1 (s.readReg rs2) (s.pc + 4#32))) ∧
    (s.cfg.memSize ≤ (effAddr s rs1 imm).toNat →
      Completes (.sb rs1 rs2 imm) s (fun t => RecordsFault s t .invalidWrite (effAddr s rs1 imm)))

/-- SH and SW: the low 2 or 4 bytes of `x[rs2]`, least significant first, from `ea` up when the access is valid;
otherwise InvalidWrite(ea) with no byte written (44_load_store.md section 1, SH, SW, and the order of effects; which
accesses are valid is D5 and D6). -/
def Obligations.StoreHalfAndWord : Prop :=
  ∀ (s : State) (rs1 rs2 : RegIdx) (imm : BitVec 12), Memory.wf s.mem →
    let ea := effAddr s rs1 imm
    (AccessOk s ea 2 →
      Completes (.sh rs1 rs2 imm) s (fun t => StoresBytes s t ea 2 (s.readReg rs2) (s.pc + 4#32))) ∧
    (AccessOk s ea 4 →
      Completes (.sw rs1 rs2 imm) s (fun t => StoresBytes s t ea 4 (s.readReg rs2) (s.pc + 4#32))) ∧
    (¬AccessOk s ea 2 → Completes (.sh rs1 rs2 imm) s (fun t => RecordsFault s t .invalidWrite ea)) ∧
    (¬AccessOk s ea 4 → Completes (.sw rs1 rs2 imm) s (fun t => RecordsFault s t .invalidWrite ea))

/-- A word stored over the next instruction is the instruction that the next step runs (20_memory.md section 7; D3). -/
def Obligations.StoredInstructionRunsNext : Prop :=
  ∀ (s t : State) (rs1 rs2 : RegIdx) (imm : BitVec 12) (i : Instr),
    Memory.wf s.mem → exec (.sw rs1 rs2 imm) s = .next t → t.status = .running →
    effAddr s rs1 imm = s.pc + 4#32 → decode (s.readReg rs2) = .ok i → step t = exec i t

/-! ## Control flow -/

/-- R151 to R156: the six branches, from an aligned pc. -/
def Obligations.Branches : Prop :=
  (∀ w : Word, opcodeOf w = 0b1100011#7 →
    (funct3Of w = 0b000#3 → decode w = .ok (.beq (rs1Of w) (rs2Of w) (bField w))) ∧
    (funct3Of w = 0b001#3 → decode w = .ok (.bne (rs1Of w) (rs2Of w) (bField w))) ∧
    (funct3Of w = 0b100#3 → decode w = .ok (.blt (rs1Of w) (rs2Of w) (bField w))) ∧
    (funct3Of w = 0b101#3 → decode w = .ok (.bge (rs1Of w) (rs2Of w) (bField w))) ∧
    (funct3Of w = 0b110#3 → decode w = .ok (.bltu (rs1Of w) (rs2Of w) (bField w))) ∧
    (funct3Of w = 0b111#3 → decode w = .ok (.bgeu (rs1Of w) (rs2Of w) (bField w)))) ∧
  ∀ (s : State) (rs1 rs2 : RegIdx) (off : BitVec 13), s.pc.toNat % 4 = 0 →
    BranchRule (.beq rs1 rs2 off) s off (s.readReg rs1 = s.readReg rs2) ∧
    BranchRule (.bne rs1 rs2 off) s off (s.readReg rs1 ≠ s.readReg rs2) ∧
    BranchRule (.blt rs1 rs2 off) s off (s32 (s.readReg rs1) < s32 (s.readReg rs2)) ∧
    BranchRule (.bge rs1 rs2 off) s off (s32 (s.readReg rs1) ≥ s32 (s.readReg rs2)) ∧
    BranchRule (.bltu rs1 rs2 off) s off ((s.readReg rs1).toNat < (s.readReg rs2).toNat) ∧
    BranchRule (.bgeu rs1 rs2 off) s off ((s.readReg rs1).toNat ≥ (s.readReg rs2).toNat)

/-- R159: JAL writes the return address and jumps to `u32(pc + offJ)`, or raises MisalignedTarget with `rd` not written. -/
def Obligations.JumpAndLink : Prop :=
  (∀ w : Word, opcodeOf w = 0b1101111#7 → decode w = .ok (.jal (rdOf w) (jField w))) ∧
  ∀ (s : State) (rd : RegIdx) (off : BitVec 21),
    let target := u32 (s.pc.toNat + off.toInt)
    (target.toNat % 4 = 0 →
      Completes (.jal rd off) s (fun t => WritesReg s t rd (u32 (s.pc.toNat + 4)) target)) ∧
    (target.toNat % 4 ≠ 0 → Completes (.jal rd off) s (fun t => RecordsFault s t .misalignedTarget target))

/-- R160: JALR jumps to the full sum of the old `x[rs1]` and the immediate, bit 0 kept, and writes the return address, or
raises MisalignedTarget with `rd` not written; funct3 is not examined. -/
def Obligations.JumpAndLinkRegister : Prop :=
  (∀ w : Word, opcodeOf w = 0b1100111#7 → decode w = .ok (.jalr (rdOf w) (rs1Of w) (iField w))) ∧
  ∀ (s : State) (rd rs1 : RegIdx) (imm : BitVec 12),
    let target := u32 ((s.readReg rs1).toNat + imm.toInt)
    (target.toNat % 4 = 0 →
      Completes (.jalr rd rs1 imm) s (fun t => WritesReg s t rd (u32 (s.pc.toNat + 4)) target)) ∧
    (target.toNat % 4 ≠ 0 → Completes (.jalr rd rs1 imm) s (fun t => RecordsFault s t .misalignedTarget target))

/-- R161, R162: LUI writes the immediate shifted left 12 bits, AUIPC that plus the address of the AUIPC itself. -/
def Obligations.UpperImmediates : Prop :=
  (∀ w : Word, (opcodeOf w = 0b0110111#7 → decode w = .ok (.lui (rdOf w) (uField w))) ∧
    (opcodeOf w = 0b0010111#7 → decode w = .ok (.auipc (rdOf w) (uField w)))) ∧
  ∀ (s : State) (rd : RegIdx) (imm20 : BitVec 20),
    Completes (.lui rd imm20) s (fun t => WritesReg s t rd (u32 (imm20.toNat * 4096)) (s.pc + 4#32)) ∧
    Completes (.auipc rd imm20) s (fun t =>
      WritesReg s t rd (u32 (s.pc.toNat + imm20.toNat * 4096)) (s.pc + 4#32))

/-- The expansion of `li rd, v` leaves `v` in `rd` and changes nothing else, for every value (30_encoding.md section 7, a
notation the spec takes from general knowledge, D22). -/
def Obligations.LiLoadsItsConstant : Prop :=
  ∀ (s : State) (rd : RegIdx) (v : Word),
    ∃ t, execAll (asmLi rd v) s = .next t ∧
      WritesReg s t rd v (s.pc + 4#32 * BitVec.ofNat 32 (asmLi rd v).length)

/-! ## Syscalls -/

/-- Syscall 1 emits the minimal decimal spelling of the argument's signed reading: a minus sign when it is negative, then
digits of its magnitude with no leading zero (45_syscall.md, print integer; the exact text is D8). -/
def Obligations.PrintInteger : Prop :=
  ∀ s : State, s.readReg s.cfg.syscallNumReg = 1#32 →
    ∃ ds : List Byte, ds ≠ [] ∧ (∀ d ∈ ds, 0x30 ≤ d.toNat ∧ d.toNat ≤ 0x39) ∧
      (ds.head? = some 0x30#8 → ds = [0x30#8]) ∧
      decimalValue ds = (s32 (s.readReg s.cfg.syscallArgReg)).natAbs ∧
      Completes .ecall s (fun t =>
        Emits s t ((if s32 (s.readReg s.cfg.syscallArgReg) < 0 then [0x2D#8] else []) ++ ds) (s.pc + 4#32))

/-- R192: syscall 4 emits the bytes from the argument's address up to the first zero byte or the memory bound, whichever
comes first, and cannot fault. -/
def Obligations.PrintString : Prop :=
  ∀ s : State, s.readReg s.cfg.syscallNumReg = 4#32 →
    let v := s.readReg s.cfg.syscallArgReg
    ∃ bs : List Byte,
      (∀ k (h : k < bs.length), v.toNat + k < s.cfg.memSize ∧ bs[k] = s.readMem (v.toNat + k) ∧ bs[k] ≠ 0#8) ∧
      (s.cfg.memSize ≤ v.toNat + bs.length ∨ s.readMem (v.toNat + bs.length) = 0#8) ∧
      Completes .ecall s (fun t => Emits s t bs (s.pc + 4#32))

/-- R193: syscall 10 emits the notice and halts with success; the pc is not advanced, no further instruction executes, and
the host still reads the registers and memory. -/
def Obligations.ExitHaltsWithSuccess : Prop :=
  ∀ s : State, s.readReg s.cfg.syscallNumReg = 10#32 →
    Completes .ecall s (fun t =>
      t.out = s.out ++ s.cfg.exitNotice ∧ t.status = .exited ∧ t.cause = s.cause ∧ t.info = s.info ∧
      SameRegs s t ∧ SameMem s t ∧ t.pc = s.pc ∧ t.cfg = s.cfg ∧ step t = .fault .halted ∧
      ∃ v, t.hostView = some v ∧ v.mem = s.mem ∧ ∀ r : RegIdx, v.regs[r.toNat]? = some (s.readReg r))

/-- R194: syscall 11 emits exactly the low byte of the argument. -/
def Obligations.PrintCharacter : Prop :=
  ∀ s : State, s.readReg s.cfg.syscallNumReg = 11#32 →
    Completes .ecall s (fun t =>
      Emits s t [BitVec.ofNat 8 (s.readReg s.cfg.syscallArgReg).toNat] (s.pc + 4#32))

/-- R195: any other syscall number raises UnknownSyscall of it, cause code 5, with nothing emitted and the pc kept. -/
def Obligations.UnknownSyscallFaults : Prop :=
  ∀ s : State, s.readReg s.cfg.syscallNumReg ∉ [1#32, 4#32, 10#32, 11#32] →
    Completes .ecall s (fun t =>
      RecordsFault s t .unknownSyscall (s.readReg s.cfg.syscallNumReg) ∧ t.cause.code = 5)

/-- Every word with the SYSTEM opcode is the syscall, whatever its other fields hold (45_syscall.md, which words are
syscalls; D19). -/
def Obligations.EverySystemWordIsASyscall : Prop :=
  ∀ (s : State) (w : Word), s.status = .running → FetchedWord s w → opcodeOf w = 0b1110011#7 →
    step s = exec .ecall s

/-! ## The whole machine -/

/-- A faulting step changes the halt status and nothing else of the whole state, and names its fault (60_exceptions.md
section 4; D11). -/
def Obligations.FaultsArePrecise : Prop :=
  ∀ s t : State, step s = .next t → t.status = .faulted →
    t = { s with status := .faulted, cause := t.cause, info := t.info } ∧ t.cause ≠ .none

/-- Each fault kind comes only from where 60_exceptions.md section 1 says it is raised, and records what that section
says it records (R201 to R205; D11, D12): the undecodable word, the invalid address of an access of the width that the
word's funct3 names, the computed target of a taken branch or of a jump, the syscall number. A branch is spoken of from an
aligned pc, which every reachable state has (10_state.md R25). -/
def Obligations.EachFaultComesFromItsRaiser : Prop :=
  ∀ s t : State, step s = .next t → t.status = .faulted →
    (t.cause = .invalidInstruction → FetchedWord s t.info ∧ ∀ i, decode t.info ≠ .ok i) ∧
    (t.cause = .invalidRead →
      (s.cfg.memSize < s.pc.toNat + 4 ∧ t.info = s.pc) ∨
      ∃ w n, FetchedWord s w ∧ opcodeOf w = 0b0000011#7 ∧ t.info = effAddr s (rs1Of w) (iField w) ∧
        (funct3Of w, n) ∈ [(0b000#3, 1), (0b001#3, 2), (0b010#3, 4), (0b100#3, 1), (0b101#3, 2)] ∧
        ¬AccessOk s t.info n) ∧
    (t.cause = .invalidWrite →
      ∃ w n, FetchedWord s w ∧ opcodeOf w = 0b0100011#7 ∧ t.info = effAddr s (rs1Of w) (sField w) ∧
        (funct3Of w, n) ∈ [(0b000#3, 1), (0b001#3, 2), (0b010#3, 4)] ∧ ¬AccessOk s t.info n) ∧
    (t.cause = .misalignedTarget →
      t.info.toNat % 4 ≠ 0 ∧
      ∃ w, FetchedWord s w ∧
        ((opcodeOf w = 0b1100011#7 ∧
            (s.pc.toNat % 4 = 0 → BranchTaken s w ∧ t.info = branchTarget s (bField w))) ∨
          (opcodeOf w = 0b1101111#7 ∧ t.info = jumpTarget s (jField w)) ∨
          (opcodeOf w = 0b1100111#7 ∧ t.info = jumpRegTarget s (rs1Of w) (iField w)))) ∧
    (t.cause = .unknownSyscall →
      t.info = s.readReg s.cfg.syscallNumReg ∧ t.info ∉ [1#32, 4#32, 10#32, 11#32] ∧
      ∃ w, FetchedWord s w ∧ opcodeOf w = 0b1110011#7)

/-- The only successful end: a SYSTEM word executed while the syscall-number register holds 10 (40_dispatch.md, the end
of a run; 60_exceptions.md section 4). -/
def Obligations.OnlySyscallTenEndsSuccessfully : Prop :=
  ∀ s t : State, step s = .next t → t.status = .exited →
    s.readReg s.cfg.syscallNumReg = 10#32 ∧ (∃ w, FetchedWord s w ∧ opcodeOf w = 0b1110011#7) ∧
    t = { s with status := .exited, out := s.out ++ s.cfg.exitNotice }

/-- The console is append-only, and only SYSTEM words append to it (10_state.md section 4; D11). -/
def Obligations.ConsoleGrowsOnlyBySyscalls : Prop :=
  ∀ s t : State, step s = .next t →
    ∃ bs, t.out = s.out ++ bs ∧ (bs ≠ [] → ∃ w, FetchedWord s w ∧ opcodeOf w = 0b1110011#7)

/-- A step changes no register but the `rd` of the word it fetched, and none at all under STORE, BRANCH and SYSTEM
(10_state.md section 1, which instructions write which registers, a derivation of the spec's). -/
def Obligations.OnlyTheDestinationRegisterChanges : Prop :=
  ∀ (s t : State) (r : RegIdx), step s = .next t → t.readReg r ≠ s.readReg r →
    r ≠ 0#5 ∧ ∃ w, FetchedWord s w ∧ rdOf w = r ∧ opcodeOf w ∉ [0b0100011#7, 0b1100011#7, 0b1110011#7]

/-- A byte of memory changes only under a store, inside the bytes it stores, inside memory (10_state.md section 3,
20_memory.md sections 1 and 2). -/
def Obligations.MemoryChangesOnlyByStores : Prop :=
  ∀ (s t : State) (a : Nat), step s = .next t → t.readMem a ≠ s.readMem a →
    ∃ w n, FetchedWord s w ∧ opcodeOf w = 0b0100011#7 ∧
      (funct3Of w, n) ∈ [(0b000#3, 1), (0b001#3, 2), (0b010#3, 4)] ∧
      (s.readReg (rs1Of w) + sext (sField w)).toNat ≤ a ∧
      a < (s.readReg (rs1Of w) + sext (sField w)).toNat + n ∧ a < s.cfg.memSize

/-- No step changes the parameters: they are arguments of the machine, not state of it (00_scope.md section 3; that they
ride in a field is the model's choice, notes/assumptions/1.md). -/
def Obligations.NoStepChangesTheParameters : Prop := ∀ s t : State, step s = .next t → t.cfg = s.cfg

/-- Every step keeps the invariant: parameters as R4 asks, an aligned pc, canonical memory inside its bound, a coherent
halt status, register cell 0 zero (10_state.md sections 1 to 4; the canonical form is the model's, notes/assumptions/4.md). -/
def Obligations.StepKeepsTheInvariant : Prop := ∀ s t : State, s.Inv → step s = .next t → t.Inv

/-- Reset meets the invariant under any parameters that R4 allows (10_state.md section 6; the canonical form in it is the
model's, notes/assumptions/4.md). -/
def Obligations.ResetMeetsTheInvariant : Prop := ∀ c : Config, c.wf → (State.resetWith c).Inv

/-- Every state a machine can reach, whatever its parameters and its MEM_INIT, meets the invariant under those
parameters; so its pc is a multiple of 4 (10_state.md section 2, a derivation of the spec's; D10; the canonical form in
the invariant is the model's, notes/assumptions/4.md). -/
def Obligations.ReachableStatesMeetTheInvariant : Prop :=
  ∀ (c : Config) (s : State), c.wf → Reachable c s → s.Inv ∧ s.cfg = c

/-- Reset applied in any state puts every piece of state at its reset value (10_state.md section 6,
70_reset_and_hazards.md section 1; D10, D11). -/
def Obligations.ResetPutsEveryPieceOfState : Prop :=
  ∀ s : State,
    (∀ r, s.applyReset.readReg r = 0x00000000#32) ∧ s.applyReset.pc = 0x00000000#32 ∧
    (∀ a, s.applyReset.readMem a = readByte s.cfg.memInit a) ∧ s.applyReset.status = .running ∧
    s.applyReset.cause.code = 0 ∧ s.applyReset.info = 0#32 ∧ s.applyReset.out = [] ∧ s.applyReset.cfg = s.cfg
end

