-- ==== Sys2Proof/Laws/Decode.lean ====
section
/-! SUPPORT. Each field read from a word assembled by the encoder's formats is the field put in, and a word assembled
from a word's own fields is that word: the facts that decoding and encoding proofs cite. -/

namespace Sys2Proof

@[simp] theorem ofBits_bits (o : Opcode) : Opcode.ofBits o.bits = some o := by cases o <;> rfl

/-- A recognised opcode field is the number of the opcode it names. -/
theorem bits_of_ofBits {b : BitVec 7} {o : Opcode} (h : Opcode.ofBits b = some o) : b = o.bits := by
  unfold Opcode.ofBits at h
  split at h <;> simp_all [Opcode.bits] <;> subst h <;> rfl

/-- The ten opcode numbers are distinct. -/
theorem bits_injective {o p : Opcode} (h : o.bits = p.bits) : o = p := by
  have := ofBits_bits o
  rw [h, ofBits_bits] at this
  exact (Option.some.inj this).symm

@[simp] theorem opcodeOf_rWord (f7 : BitVec 7) (rs2 rs1 : RegIdx) (f3 : BitVec 3) (rd : RegIdx) (o : Opcode) :
    opcodeOf (rWord f7 rs2 rs1 f3 rd o) = o.bits := by
  apply BitVec.eq_of_getLsbD_eq
  intro i hi
  simp only [opcodeOf, rWord, BitVec.getLsbD_append, BitVec.getLsbD_extractLsb']
  interval_cases i <;> simp

@[simp] theorem rdOf_rWord (f7 : BitVec 7) (rs2 rs1 : RegIdx) (f3 : BitVec 3) (rd : RegIdx) (o : Opcode) :
    rdOf (rWord f7 rs2 rs1 f3 rd o) = rd := by
  apply BitVec.eq_of_getLsbD_eq
  intro i hi
  simp only [rdOf, rWord, BitVec.getLsbD_append, BitVec.getLsbD_extractLsb']
  interval_cases i <;> simp

@[simp] theorem funct3Of_rWord (f7 : BitVec 7) (rs2 rs1 : RegIdx) (f3 : BitVec 3) (rd : RegIdx) (o : Opcode) :
    funct3Of (rWord f7 rs2 rs1 f3 rd o) = f3 := by
  apply BitVec.eq_of_getLsbD_eq
  intro i hi
  simp only [funct3Of, rWord, BitVec.getLsbD_append, BitVec.getLsbD_extractLsb']
  interval_cases i <;> simp

@[simp] theorem rs1Of_rWord (f7 : BitVec 7) (rs2 rs1 : RegIdx) (f3 : BitVec 3) (rd : RegIdx) (o : Opcode) :
    rs1Of (rWord f7 rs2 rs1 f3 rd o) = rs1 := by
  apply BitVec.eq_of_getLsbD_eq
  intro i hi
  simp only [rs1Of, rWord, BitVec.getLsbD_append, BitVec.getLsbD_extractLsb']
  interval_cases i <;> simp

@[simp] theorem rs2Of_rWord (f7 : BitVec 7) (rs2 rs1 : RegIdx) (f3 : BitVec 3) (rd : RegIdx) (o : Opcode) :
    rs2Of (rWord f7 rs2 rs1 f3 rd o) = rs2 := by
  apply BitVec.eq_of_getLsbD_eq
  intro i hi
  simp only [rs2Of, rWord, BitVec.getLsbD_append, BitVec.getLsbD_extractLsb']
  interval_cases i <;> simp

@[simp] theorem funct7Of_rWord (f7 : BitVec 7) (rs2 rs1 : RegIdx) (f3 : BitVec 3) (rd : RegIdx) (o : Opcode) :
    funct7Of (rWord f7 rs2 rs1 f3 rd o) = f7 := by
  apply BitVec.eq_of_getLsbD_eq
  intro i hi
  simp only [funct7Of, rWord, BitVec.getLsbD_append, BitVec.getLsbD_extractLsb']
  interval_cases i <;> simp

@[simp] theorem opcodeOf_iWord (imm : BitVec 12) (rs1 : RegIdx) (f3 : BitVec 3) (rd : RegIdx) (o : Opcode) :
    opcodeOf (iWord imm rs1 f3 rd o) = o.bits := by
  apply BitVec.eq_of_getLsbD_eq
  intro i hi
  simp only [opcodeOf, iWord, BitVec.getLsbD_append, BitVec.getLsbD_extractLsb']
  interval_cases i <;> simp

@[simp] theorem rdOf_iWord (imm : BitVec 12) (rs1 : RegIdx) (f3 : BitVec 3) (rd : RegIdx) (o : Opcode) :
    rdOf (iWord imm rs1 f3 rd o) = rd := by
  apply BitVec.eq_of_getLsbD_eq
  intro i hi
  simp only [rdOf, iWord, BitVec.getLsbD_append, BitVec.getLsbD_extractLsb']
  interval_cases i <;> simp

@[simp] theorem funct3Of_iWord (imm : BitVec 12) (rs1 : RegIdx) (f3 : BitVec 3) (rd : RegIdx) (o : Opcode) :
    funct3Of (iWord imm rs1 f3 rd o) = f3 := by
  apply BitVec.eq_of_getLsbD_eq
  intro i hi
  simp only [funct3Of, iWord, BitVec.getLsbD_append, BitVec.getLsbD_extractLsb']
  interval_cases i <;> simp

@[simp] theorem rs1Of_iWord (imm : BitVec 12) (rs1 : RegIdx) (f3 : BitVec 3) (rd : RegIdx) (o : Opcode) :
    rs1Of (iWord imm rs1 f3 rd o) = rs1 := by
  apply BitVec.eq_of_getLsbD_eq
  intro i hi
  simp only [rs1Of, iWord, BitVec.getLsbD_append, BitVec.getLsbD_extractLsb']
  interval_cases i <;> simp

@[simp] theorem iField_iWord (imm : BitVec 12) (rs1 : RegIdx) (f3 : BitVec 3) (rd : RegIdx) (o : Opcode) :
    iField (iWord imm rs1 f3 rd o) = imm := by
  apply BitVec.eq_of_getLsbD_eq
  intro i hi
  simp only [iField, iWord, BitVec.getLsbD_append, BitVec.getLsbD_extractLsb']
  interval_cases i <;> simp

@[simp] theorem opcodeOf_shiftWord (f7 : BitVec 7) (shamt : BitVec 5) (rs1 : RegIdx) (f3 : BitVec 3) (rd : RegIdx) :
    opcodeOf (shiftWord f7 shamt rs1 f3 rd) = Opcode.opImm.bits := by
  apply BitVec.eq_of_getLsbD_eq
  intro i hi
  simp only [opcodeOf, shiftWord, BitVec.getLsbD_append, BitVec.getLsbD_extractLsb']
  interval_cases i <;> simp

@[simp] theorem rdOf_shiftWord (f7 : BitVec 7) (shamt : BitVec 5) (rs1 : RegIdx) (f3 : BitVec 3) (rd : RegIdx) :
    rdOf (shiftWord f7 shamt rs1 f3 rd) = rd := by
  apply BitVec.eq_of_getLsbD_eq
  intro i hi
  simp only [rdOf, shiftWord, BitVec.getLsbD_append, BitVec.getLsbD_extractLsb']
  interval_cases i <;> simp

@[simp] theorem funct3Of_shiftWord (f7 : BitVec 7) (shamt : BitVec 5) (rs1 : RegIdx) (f3 : BitVec 3) (rd : RegIdx) :
    funct3Of (shiftWord f7 shamt rs1 f3 rd) = f3 := by
  apply BitVec.eq_of_getLsbD_eq
  intro i hi
  simp only [funct3Of, shiftWord, BitVec.getLsbD_append, BitVec.getLsbD_extractLsb']
  interval_cases i <;> simp

@[simp] theorem rs1Of_shiftWord (f7 : BitVec 7) (shamt : BitVec 5) (rs1 : RegIdx) (f3 : BitVec 3) (rd : RegIdx) :
    rs1Of (shiftWord f7 shamt rs1 f3 rd) = rs1 := by
  apply BitVec.eq_of_getLsbD_eq
  intro i hi
  simp only [rs1Of, shiftWord, BitVec.getLsbD_append, BitVec.getLsbD_extractLsb']
  interval_cases i <;> simp

@[simp] theorem shamtOf_shiftWord (f7 : BitVec 7) (shamt : BitVec 5) (rs1 : RegIdx) (f3 : BitVec 3) (rd : RegIdx) :
    shamtOf (shiftWord f7 shamt rs1 f3 rd) = shamt := by
  apply BitVec.eq_of_getLsbD_eq
  intro i hi
  simp only [shamtOf, shiftWord, BitVec.getLsbD_append, BitVec.getLsbD_extractLsb']
  interval_cases i <;> simp

@[simp] theorem funct7Of_shiftWord (f7 : BitVec 7) (shamt : BitVec 5) (rs1 : RegIdx) (f3 : BitVec 3) (rd : RegIdx) :
    funct7Of (shiftWord f7 shamt rs1 f3 rd) = f7 := by
  apply BitVec.eq_of_getLsbD_eq
  intro i hi
  simp only [funct7Of, shiftWord, BitVec.getLsbD_append, BitVec.getLsbD_extractLsb']
  interval_cases i <;> simp

@[simp] theorem opcodeOf_sWord (imm : BitVec 12) (rs2 rs1 : RegIdx) (f3 : BitVec 3) :
    opcodeOf (sWord imm rs2 rs1 f3) = Opcode.store.bits := by
  apply BitVec.eq_of_getLsbD_eq
  intro i hi
  simp only [opcodeOf, sWord, BitVec.getLsbD_append, BitVec.getLsbD_extractLsb']
  interval_cases i <;> simp

@[simp] theorem funct3Of_sWord (imm : BitVec 12) (rs2 rs1 : RegIdx) (f3 : BitVec 3) :
    funct3Of (sWord imm rs2 rs1 f3) = f3 := by
  apply BitVec.eq_of_getLsbD_eq
  intro i hi
  simp only [funct3Of, sWord, BitVec.getLsbD_append, BitVec.getLsbD_extractLsb']
  interval_cases i <;> simp

@[simp] theorem rs1Of_sWord (imm : BitVec 12) (rs2 rs1 : RegIdx) (f3 : BitVec 3) :
    rs1Of (sWord imm rs2 rs1 f3) = rs1 := by
  apply BitVec.eq_of_getLsbD_eq
  intro i hi
  simp only [rs1Of, sWord, BitVec.getLsbD_append, BitVec.getLsbD_extractLsb']
  interval_cases i <;> simp

@[simp] theorem rs2Of_sWord (imm : BitVec 12) (rs2 rs1 : RegIdx) (f3 : BitVec 3) :
    rs2Of (sWord imm rs2 rs1 f3) = rs2 := by
  apply BitVec.eq_of_getLsbD_eq
  intro i hi
  simp only [rs2Of, sWord, BitVec.getLsbD_append, BitVec.getLsbD_extractLsb']
  interval_cases i <;> simp

@[simp] theorem sField_sWord (imm : BitVec 12) (rs2 rs1 : RegIdx) (f3 : BitVec 3) :
    sField (sWord imm rs2 rs1 f3) = imm := by
  apply BitVec.eq_of_getLsbD_eq
  intro i hi
  simp only [sField, sWord, BitVec.getLsbD_append, BitVec.getLsbD_extractLsb']
  interval_cases i <;> simp

@[simp] theorem opcodeOf_bWord (off : BitVec 13) (rs2 rs1 : RegIdx) (f3 : BitVec 3) :
    opcodeOf (bWord off rs2 rs1 f3) = Opcode.branch.bits := by
  apply BitVec.eq_of_getLsbD_eq
  intro i hi
  simp only [opcodeOf, bWord, BitVec.getLsbD_append, BitVec.getLsbD_extractLsb']
  interval_cases i <;> simp

@[simp] theorem funct3Of_bWord (off : BitVec 13) (rs2 rs1 : RegIdx) (f3 : BitVec 3) :
    funct3Of (bWord off rs2 rs1 f3) = f3 := by
  apply BitVec.eq_of_getLsbD_eq
  intro i hi
  simp only [funct3Of, bWord, BitVec.getLsbD_append, BitVec.getLsbD_extractLsb']
  interval_cases i <;> simp

@[simp] theorem rs1Of_bWord (off : BitVec 13) (rs2 rs1 : RegIdx) (f3 : BitVec 3) :
    rs1Of (bWord off rs2 rs1 f3) = rs1 := by
  apply BitVec.eq_of_getLsbD_eq
  intro i hi
  simp only [rs1Of, bWord, BitVec.getLsbD_append, BitVec.getLsbD_extractLsb']
  interval_cases i <;> simp

@[simp] theorem rs2Of_bWord (off : BitVec 13) (rs2 rs1 : RegIdx) (f3 : BitVec 3) :
    rs2Of (bWord off rs2 rs1 f3) = rs2 := by
  apply BitVec.eq_of_getLsbD_eq
  intro i hi
  simp only [rs2Of, bWord, BitVec.getLsbD_append, BitVec.getLsbD_extractLsb']
  interval_cases i <;> simp

@[simp] theorem opcodeOf_uWord (imm : BitVec 20) (rd : RegIdx) (o : Opcode) :
    opcodeOf (uWord imm rd o) = o.bits := by
  apply BitVec.eq_of_getLsbD_eq
  intro i hi
  simp only [opcodeOf, uWord, BitVec.getLsbD_append, BitVec.getLsbD_extractLsb']
  interval_cases i <;> simp

@[simp] theorem rdOf_uWord (imm : BitVec 20) (rd : RegIdx) (o : Opcode) :
    rdOf (uWord imm rd o) = rd := by
  apply BitVec.eq_of_getLsbD_eq
  intro i hi
  simp only [rdOf, uWord, BitVec.getLsbD_append, BitVec.getLsbD_extractLsb']
  interval_cases i <;> simp

@[simp] theorem uField_uWord (imm : BitVec 20) (rd : RegIdx) (o : Opcode) :
    uField (uWord imm rd o) = imm := by
  apply BitVec.eq_of_getLsbD_eq
  intro i hi
  simp only [uField, uWord, BitVec.getLsbD_append, BitVec.getLsbD_extractLsb']
  interval_cases i <;> simp

@[simp] theorem opcodeOf_jWord (off : BitVec 21) (rd : RegIdx) :
    opcodeOf (jWord off rd) = Opcode.jal.bits := by
  apply BitVec.eq_of_getLsbD_eq
  intro i hi
  simp only [opcodeOf, jWord, BitVec.getLsbD_append, BitVec.getLsbD_extractLsb']
  interval_cases i <;> simp

@[simp] theorem rdOf_jWord (off : BitVec 21) (rd : RegIdx) :
    rdOf (jWord off rd) = rd := by
  apply BitVec.eq_of_getLsbD_eq
  intro i hi
  simp only [rdOf, jWord, BitVec.getLsbD_append, BitVec.getLsbD_extractLsb']
  interval_cases i <;> simp

/-- An even branch offset survives the B format (R75, R80). -/
theorem bField_bWord (off : BitVec 13) (rs2 rs1 : RegIdx) (f3 : BitVec 3) (h : offBOk off = true) :
    bField (bWord off rs2 rs1 f3) = off := by
  simp only [offBOk, beq_iff_eq] at h
  apply BitVec.eq_of_getLsbD_eq
  intro i hi
  simp only [bField, bWord, BitVec.getLsbD_append, BitVec.getLsbD_extractLsb']
  interval_cases i <;> simp
  simpa using h.symm

/-- An even jump offset survives the J format (R77, R82). -/
theorem jField_jWord (off : BitVec 21) (rd : RegIdx) (h : offJOk off = true) : jField (jWord off rd) = off := by
  simp only [offJOk, beq_iff_eq] at h
  apply BitVec.eq_of_getLsbD_eq
  intro i hi
  simp only [jField, jWord, BitVec.getLsbD_append, BitVec.getLsbD_extractLsb']
  interval_cases i <;> simp
  simpa using h.symm

/-- A branch offset read from a word is even. -/
@[simp] theorem offBOk_bField (w : Word) : offBOk (bField w) = true := by
  simp only [offBOk, bField, BitVec.getLsbD_append]
  simp

/-- A jump offset read from a word is even. -/
@[simp] theorem offJOk_jField (w : Word) : offJOk (jField w) = true := by
  simp only [offJOk, jField, BitVec.getLsbD_append]
  simp

/-- A word of this format is assembled from its own fields. -/
theorem rWord_fields {w : Word} {o : Opcode} (h : opcodeOf w = o.bits) : rWord (funct7Of w) (rs2Of w) (rs1Of w) (funct3Of w) (rdOf w) o = w := by
  rw [rWord, ← h]
  apply BitVec.eq_of_getLsbD_eq
  intro i hi
  simp only [opcodeOf, funct7Of, rs2Of, rs1Of, funct3Of, rdOf, BitVec.getLsbD_append, BitVec.getLsbD_extractLsb']
  interval_cases i <;> simp

/-- A word of this format is assembled from its own fields. -/
theorem iWord_fields {w : Word} {o : Opcode} (h : opcodeOf w = o.bits) : iWord (iField w) (rs1Of w) (funct3Of w) (rdOf w) o = w := by
  rw [iWord, ← h]
  apply BitVec.eq_of_getLsbD_eq
  intro i hi
  simp only [opcodeOf, iField, rs1Of, funct3Of, rdOf, BitVec.getLsbD_append, BitVec.getLsbD_extractLsb']
  interval_cases i <;> simp

/-- A word of this format is assembled from its own fields. -/
theorem shiftWord_fields {w : Word} (h : opcodeOf w = Opcode.opImm.bits) : shiftWord (funct7Of w) (shamtOf w) (rs1Of w) (funct3Of w) (rdOf w) = w := by
  rw [shiftWord, ← h]
  apply BitVec.eq_of_getLsbD_eq
  intro i hi
  simp only [opcodeOf, funct7Of, shamtOf, rs1Of, funct3Of, rdOf, BitVec.getLsbD_append, BitVec.getLsbD_extractLsb']
  interval_cases i <;> simp

/-- A word of this format is assembled from its own fields. -/
theorem sWord_fields {w : Word} (h : opcodeOf w = Opcode.store.bits) : sWord (sField w) (rs2Of w) (rs1Of w) (funct3Of w) = w := by
  rw [sWord, ← h]
  apply BitVec.eq_of_getLsbD_eq
  intro i hi
  simp only [opcodeOf, sField, rs2Of, rs1Of, funct3Of, BitVec.getLsbD_append, BitVec.getLsbD_extractLsb']
  interval_cases i <;> simp

/-- A word of this format is assembled from its own fields. -/
theorem bWord_fields {w : Word} (h : opcodeOf w = Opcode.branch.bits) : bWord (bField w) (rs2Of w) (rs1Of w) (funct3Of w) = w := by
  rw [bWord, ← h]
  apply BitVec.eq_of_getLsbD_eq
  intro i hi
  simp only [opcodeOf, bField, rs2Of, rs1Of, funct3Of, BitVec.getLsbD_append, BitVec.getLsbD_extractLsb']
  interval_cases i <;> simp

/-- A word of this format is assembled from its own fields. -/
theorem uWord_fields {w : Word} {o : Opcode} (h : opcodeOf w = o.bits) : uWord (uField w) (rdOf w) o = w := by
  rw [uWord, ← h]
  apply BitVec.eq_of_getLsbD_eq
  intro i hi
  simp only [opcodeOf, uField, rdOf, BitVec.getLsbD_append, BitVec.getLsbD_extractLsb']
  interval_cases i <;> simp

/-- A word of this format is assembled from its own fields. -/
theorem jWord_fields {w : Word} (h : opcodeOf w = Opcode.jal.bits) : jWord (jField w) (rdOf w) = w := by
  rw [jWord, ← h]
  apply BitVec.eq_of_getLsbD_eq
  intro i hi
  simp only [opcodeOf, jField, rdOf, BitVec.getLsbD_append, BitVec.getLsbD_extractLsb']
  interval_cases i <;> simp

/-! ## The decoder at each opcode (R102) -/

section
variable {w : Word}

theorem decode_op (h : opcodeOf w = 0b0110011#7) :
    decode w = decodeOp (funct7Of w) (funct3Of w) (rdOf w) (rs1Of w) (rs2Of w) := by simp [decode, h, Opcode.ofBits]

theorem decode_opImm (h : opcodeOf w = 0b0010011#7) :
    decode w = decodeOpImm (funct7Of w) (funct3Of w) (rdOf w) (rs1Of w) (iField w) (shamtOf w) := by
  simp [decode, h, Opcode.ofBits]

theorem decode_load (h : opcodeOf w = 0b0000011#7) :
    decode w = decodeLoad (funct3Of w) (rdOf w) (rs1Of w) (iField w) := by simp [decode, h, Opcode.ofBits]

theorem decode_store (h : opcodeOf w = 0b0100011#7) :
    decode w = decodeStore (funct3Of w) (rs1Of w) (rs2Of w) (sField w) := by simp [decode, h, Opcode.ofBits]

theorem decode_branch (h : opcodeOf w = 0b1100011#7) :
    decode w = decodeBranch (funct3Of w) (rs1Of w) (rs2Of w) (bField w) := by simp [decode, h, Opcode.ofBits]

end

end Sys2Proof
end

