-- ==== Sys2Proof/Laws/State.lean ====
section
/-! SUPPORT. One lemma for each field of State under each update, so that no later proof unfolds a record update; what a
register read gives after an update; the register file's read-after-write law. -/

namespace Sys2Proof.Machine

variable (s : State)

@[simp] theorem writeReg_pc (r : RegIdx) (v : Word) : (s.writeReg r v).pc = s.pc := by unfold State.writeReg; split <;> rfl
@[simp] theorem writeReg_mem (r : RegIdx) (v : Word) : (s.writeReg r v).mem = s.mem := by unfold State.writeReg; split <;> rfl
@[simp] theorem writeReg_status (r : RegIdx) (v : Word) : (s.writeReg r v).status = s.status := by unfold State.writeReg; split <;> rfl
@[simp] theorem writeReg_cause (r : RegIdx) (v : Word) : (s.writeReg r v).cause = s.cause := by unfold State.writeReg; split <;> rfl
@[simp] theorem writeReg_info (r : RegIdx) (v : Word) : (s.writeReg r v).info = s.info := by unfold State.writeReg; split <;> rfl
@[simp] theorem writeReg_out (r : RegIdx) (v : Word) : (s.writeReg r v).out = s.out := by unfold State.writeReg; split <;> rfl
@[simp] theorem writeReg_cfg (r : RegIdx) (v : Word) : (s.writeReg r v).cfg = s.cfg := by unfold State.writeReg; split <;> rfl
@[simp] theorem writeReg_readMem (r : RegIdx) (v : Word) (a : Nat) : (s.writeReg r v).readMem a = s.readMem a := by
  simp [State.readMem]

@[simp] theorem setPc_regs (t : Word) : (s.setPc t).regs = s.regs := rfl
@[simp] theorem setPc_mem (t : Word) : (s.setPc t).mem = s.mem := rfl
@[simp] theorem setPc_status (t : Word) : (s.setPc t).status = s.status := rfl
@[simp] theorem setPc_cause (t : Word) : (s.setPc t).cause = s.cause := rfl
@[simp] theorem setPc_info (t : Word) : (s.setPc t).info = s.info := rfl
@[simp] theorem setPc_out (t : Word) : (s.setPc t).out = s.out := rfl
@[simp] theorem setPc_cfg (t : Word) : (s.setPc t).cfg = s.cfg := rfl
@[simp] theorem setPc_pc (t : Word) : (s.setPc t).pc = t := rfl
@[simp] theorem setPc_readReg (t : Word) (r : RegIdx) : (s.setPc t).readReg r = s.readReg r := rfl
@[simp] theorem setPc_readMem (t : Word) (a : Nat) : (s.setPc t).readMem a = s.readMem a := by
  simp [State.readMem]

@[simp] theorem advance_regs : (s.advance).regs = s.regs := rfl
@[simp] theorem advance_mem : (s.advance).mem = s.mem := rfl
@[simp] theorem advance_status : (s.advance).status = s.status := rfl
@[simp] theorem advance_cause : (s.advance).cause = s.cause := rfl
@[simp] theorem advance_info : (s.advance).info = s.info := rfl
@[simp] theorem advance_out : (s.advance).out = s.out := rfl
@[simp] theorem advance_cfg : (s.advance).cfg = s.cfg := rfl
@[simp] theorem advance_pc : (s.advance).pc = s.pc + 4#32 := rfl
@[simp] theorem advance_readReg (r : RegIdx) : (s.advance).readReg r = s.readReg r := rfl
@[simp] theorem advance_readMem (a : Nat) : (s.advance).readMem a = s.readMem a := by
  simp [State.readMem]

@[simp] theorem emit_regs (bs : List Byte) : (s.emit bs).regs = s.regs := rfl
@[simp] theorem emit_pc (bs : List Byte) : (s.emit bs).pc = s.pc := rfl
@[simp] theorem emit_mem (bs : List Byte) : (s.emit bs).mem = s.mem := rfl
@[simp] theorem emit_status (bs : List Byte) : (s.emit bs).status = s.status := rfl
@[simp] theorem emit_cause (bs : List Byte) : (s.emit bs).cause = s.cause := rfl
@[simp] theorem emit_info (bs : List Byte) : (s.emit bs).info = s.info := rfl
@[simp] theorem emit_cfg (bs : List Byte) : (s.emit bs).cfg = s.cfg := rfl
@[simp] theorem emit_out (bs : List Byte) : (s.emit bs).out = s.out ++ bs := rfl
@[simp] theorem emit_readReg (bs : List Byte) (r : RegIdx) : (s.emit bs).readReg r = s.readReg r := rfl
@[simp] theorem emit_readMem (bs : List Byte) (a : Nat) : (s.emit bs).readMem a = s.readMem a := by
  simp [State.readMem]

@[simp] theorem raise_regs (f : Raised) : (s.raise f).regs = s.regs := rfl
@[simp] theorem raise_pc (f : Raised) : (s.raise f).pc = s.pc := rfl
@[simp] theorem raise_mem (f : Raised) : (s.raise f).mem = s.mem := rfl
@[simp] theorem raise_out (f : Raised) : (s.raise f).out = s.out := rfl
@[simp] theorem raise_cfg (f : Raised) : (s.raise f).cfg = s.cfg := rfl
@[simp] theorem raise_status (f : Raised) : (s.raise f).status = .faulted := rfl
@[simp] theorem raise_cause (f : Raised) : (s.raise f).cause = f.cause := rfl
@[simp] theorem raise_info (f : Raised) : (s.raise f).info = f.info := rfl
@[simp] theorem raise_readReg (f : Raised) (r : RegIdx) : (s.raise f).readReg r = s.readReg r := rfl
@[simp] theorem raise_readMem (f : Raised) (a : Nat) : (s.raise f).readMem a = s.readMem a := by
  simp [State.readMem]

@[simp] theorem haltExit_regs : (s.haltExit).regs = s.regs := rfl
@[simp] theorem haltExit_pc : (s.haltExit).pc = s.pc := rfl
@[simp] theorem haltExit_mem : (s.haltExit).mem = s.mem := rfl
@[simp] theorem haltExit_cause : (s.haltExit).cause = s.cause := rfl
@[simp] theorem haltExit_info : (s.haltExit).info = s.info := rfl
@[simp] theorem haltExit_out : (s.haltExit).out = s.out := rfl
@[simp] theorem haltExit_cfg : (s.haltExit).cfg = s.cfg := rfl
@[simp] theorem haltExit_status : (s.haltExit).status = .exited := rfl
@[simp] theorem haltExit_readReg (r : RegIdx) : (s.haltExit).readReg r = s.readReg r := rfl
@[simp] theorem haltExit_readMem (a : Nat) : (s.haltExit).readMem a = s.readMem a := by
  simp [State.readMem]

@[simp] theorem nextPc_eq : s.nextPc = s.pc + 4#32 := rfl

/-- Register 0 reads zero (R21). -/
@[simp] theorem readReg_zero : s.readReg 0#5 = 0#32 := rfl

/-- A write to register 0 has no effect (R21). -/
@[simp] theorem writeReg_zero (v : Word) : s.writeReg 0#5 v = s := rfl

theorem readReg_of_ne_zero {r : RegIdx} (h : r ≠ 0#5) : s.readReg r = s.regs[r.toNat]'r.isLt := by
  simp [State.readReg, h]

/-- The register written reads the value, unless it is register 0; every other register reads as before (R20, R21). -/
theorem readReg_writeReg (d r : RegIdx) (v : Word) :
    (s.writeReg d v).readReg r = if r = d ∧ r ≠ 0#5 then v else s.readReg r := by
  by_cases hr : r = 0#5
  · subst hr; simp
  by_cases hd : d = 0#5
  · subst hd; simp [hr]
  by_cases hrd : r = d
  · subst hrd; simp [State.readReg, State.writeReg, hr]
  · have h : d.toNat ≠ r.toNat := fun h => hrd (BitVec.eq_of_toNat_eq h.symm)
    have h2 : (s.regs.set d.toNat v d.isLt)[r.toNat]'r.isLt = s.regs[r.toNat]'r.isLt :=
      Vector.getElem_set_ne _ r.isLt h
    simp [State.readReg, State.writeReg, hr, hd, hrd, h2]

/-- The stored cell 0 never changes. -/
@[simp] theorem writeReg_cell_zero (d : RegIdx) (v : Word) : (s.writeReg d v).regs[0] = s.regs[0] := by
  by_cases hd : d = 0#5
  · subst hd; rfl
  · have h : d.toNat ≠ 0 := fun h => hd (BitVec.eq_of_toNat_eq h)
    simp [State.writeReg, hd, Vector.getElem_set_ne, h]

end Sys2Proof.Machine
end

