-- ==== Sys2Proof/Laws/Memory.lean ====
section
/-! SUPPORT. The laws of memory: a byte written reads back, every other byte stays, and every memory operation keeps
the canonical form `Memory.wf`. -/

namespace Sys2Proof.Machine

@[simp] theorem readByte_nil (a : Nat) : readByte [] a = Memory.unlistedByte := rfl

theorem readByte_cons (c : Host.Cell) (m : Memory) (a : Nat) :
    readByte (c :: m) a = if c.1 = a then c.2 else readByte m a := rfl

/-- An address that the list does not name reads as the unlisted byte. -/
theorem readByte_unlisted {m : Memory} {a : Nat} (h : ∀ c ∈ m, c.1 ≠ a) : readByte m a = Memory.unlistedByte := by
  induction m with
  | nil => rfl
  | cons c m ih =>
    rw [readByte_cons, if_neg (h c (by simp)), ih fun d hd => h d (by simp [hd])]

/-- A write leaves every other byte alone, in any list. -/
theorem readByte_writeByte_ne {a a' : Nat} (v : Byte) (m : Memory) (h : a' ≠ a) :
    readByte (writeByte a v m) a' = readByte m a' := by
  induction m with
  | nil => unfold writeByte; split <;> simp [readByte_cons, h.symm]
  | cons c m ih =>
    obtain ⟨k, b⟩ := c
    unfold writeByte
    split
    · split <;> simp [readByte_cons, h.symm]
    split
    · subst k; split <;> simp [readByte_cons, h.symm]
    · simp only [readByte_cons, ih]

/-- The byte written reads back, in a canonical memory. -/
theorem readByte_writeByte_self {m : Memory} (hm : Memory.wf m) (a : Nat) (v : Byte) :
    readByte (writeByte a v m) a = v := by
  induction m with
  | nil => unfold writeByte; split <;> simp_all [readByte_cons]
  | cons c m ih =>
    obtain ⟨k, b⟩ := c
    have hk : ∀ d ∈ m, k < d.1 := (List.pairwise_cons.mp hm.1).1
    have hm' : Memory.wf m := ⟨(List.pairwise_cons.mp hm.1).2, fun d hd => hm.2 d (by simp [hd])⟩
    unfold writeByte
    split
    · split
      · rename_i hlt hv
        rw [readByte_unlisted, hv]
        simp only [List.mem_cons, forall_eq_or_imp]
        exact ⟨by omega, fun d hd => by have := hk d hd; omega⟩
      · simp [readByte_cons]
    split
    · split
      · rename_i ha hv
        rw [readByte_unlisted, hv]
        exact fun d hd => by have := hk d hd; omega
      · simp [readByte_cons, *]
    · rename_i h1 h2
      rw [readByte_cons, if_neg (by simp; omega), ih hm']

/-- A byte after a write of one byte, in a canonical memory. -/
theorem readByte_writeByte {m : Memory} (hm : Memory.wf m) (a a' : Nat) (v : Byte) :
    readByte (writeByte a v m) a' = if a' = a then v else readByte m a' := by
  split
  · subst a'; exact readByte_writeByte_self hm a v
  · exact readByte_writeByte_ne v m ‹_›

/-- What the entries after a write are: the new one, or old ones. -/
theorem mem_writeByte {a : Nat} {v : Byte} {m : Memory} {c : Host.Cell} (h : c ∈ writeByte a v m) :
    (c = (a, v) ∧ v ≠ Memory.unlistedByte) ∨ c ∈ m := by
  induction m with
  | nil => unfold writeByte at h; split at h <;> simp_all
  | cons d m ih =>
    obtain ⟨k, b⟩ := d
    unfold writeByte at h
    split at h
    · split at h <;> simp_all
    split at h
    · split at h <;> simp_all; grind
    · simp only [List.mem_cons] at h ⊢
      rcases h with h | h
      · exact .inr (.inl h)
      · exact (ih h).imp_right .inr

/-- Writing a byte keeps the canonical form. -/
theorem writeByte_wf {m : Memory} (hm : Memory.wf m) (a : Nat) (v : Byte) : Memory.wf (writeByte a v m) := by
  refine ⟨?_, fun c hc => ?_⟩
  · induction m with
    | nil => unfold writeByte; split <;> simp
    | cons c m ih =>
      obtain ⟨k, b⟩ := c
      have hk : ∀ d ∈ m, k < d.1 := (List.pairwise_cons.mp hm.1).1
      have hm' : Memory.wf m := ⟨(List.pairwise_cons.mp hm.1).2, fun d hd => hm.2 d (by simp [hd])⟩
      unfold writeByte
      split
      · split
        · exact hm.1
        · refine List.pairwise_cons.mpr ⟨?_, hm.1⟩
          simp only [List.mem_cons, forall_eq_or_imp]
          exact ⟨by assumption, fun d hd => by have := hk d hd; omega⟩
      split
      · split
        · exact hm'.1
        · exact List.pairwise_cons.mpr ⟨hk, hm'.1⟩
      · refine List.pairwise_cons.mpr ⟨fun d hd => ?_, ih hm'⟩
        rcases mem_writeByte hd with ⟨rfl, _⟩ | hd
        · simp; omega
        · exact hk d hd
  · rcases mem_writeByte hc with ⟨rfl, hv⟩ | hc
    · exact hv
    · exact hm.2 c hc

/-- Writing bytes keeps the canonical form. -/
theorem writeBytes_wf {m : Memory} (hm : Memory.wf m) (a : Nat) (bs : List Byte) :
    Memory.wf (writeBytes a bs m) := by
  induction bs generalizing a m with
  | nil => exact hm
  | cons b bs ih => exact ih (writeByte_wf hm a b) (a + 1)

/-- The addresses listed after a write of bytes are listed before it or in the range written. -/
theorem writeBytes_addr {m : Memory} {a : Nat} {bs : List Byte} {c : Host.Cell} (h : c ∈ writeBytes a bs m) :
    (a ≤ c.1 ∧ c.1 < a + bs.length) ∨ c ∈ m := by
  induction bs generalizing a m with
  | nil => exact .inr h
  | cons b bs ih =>
    simp only [List.length_cons]
    rcases ih h with h | h
    · exact .inl ⟨by omega, by omega⟩
    · rcases mem_writeByte h with ⟨rfl, _⟩ | h
      · exact .inl ⟨by simp, by simp⟩
      · exact .inr h

/-- Bytes outside the range written read as before, in any list. -/
theorem readByte_writeBytes_out {a a' : Nat} {bs : List Byte} (m : Memory) (h : a' < a ∨ a + bs.length ≤ a') :
    readByte (writeBytes a bs m) a' = readByte m a' := by
  induction bs generalizing a m with
  | nil => rfl
  | cons b bs ih =>
    simp only [List.length_cons] at h
    rw [writeBytes, ih _ (by omega), readByte_writeByte_ne _ _ (by omega)]

/-- Bytes in the range written read as the bytes written, in a canonical memory. -/
theorem readByte_writeBytes_in {m : Memory} (hm : Memory.wf m) {a : Nat} {bs : List Byte} {k : Nat}
    (h : k < bs.length) : readByte (writeBytes a bs m) (a + k) = bs[k] := by
  induction bs generalizing a m k with
  | nil => simp at h
  | cons b bs ih =>
    cases k with
    | zero => simp [writeBytes, readByte_writeBytes_out, readByte_writeByte_self hm]
    | succ k =>
      have := ih (writeByte_wf hm a b) (a := a + 1) (k := k) (by simpa using h)
      simpa [writeBytes, Nat.add_assoc, Nat.add_comm 1 k] using this

@[simp] theorem readBytes_length (m : Memory) (a n : Nat) : (readBytes m a n).length = n := by
  induction n generalizing a with
  | zero => rfl
  | succ n ih => simp [readBytes, ih]

@[simp] theorem leBytes_length (n : Nat) (v : Word) : (leBytes n v).length = n := by
  induction n generalizing v with
  | zero => rfl
  | succ n ih => simp [leBytes, ih]

/-- Byte `k` of the little-endian bytes of a value is its bits `8k+7 .. 8k` (R44). -/
theorem leBytes_getElem (n : Nat) (v : Word) (k : Nat) (h : k < (leBytes n v).length) :
    (leBytes n v)[k] = v.extractLsb' (8 * k) 8 := by
  induction n generalizing v k with
  | zero => simp at h
  | succ n ih =>
    cases k with
    | zero =>
      apply BitVec.eq_of_getLsbD_eq
      intro i hi
      simp [leBytes]
    | succ k =>
      simp only [leBytes, List.getElem_cons_succ]
      rw [ih _ _ (by simpa using h)]
      apply BitVec.eq_of_getLsbD_eq
      intro i hi
      simp [Nat.mul_add, Nat.add_assoc, Nat.add_left_comm]

/-- Reading back the bytes just written, in a canonical memory. -/
theorem readBytes_writeBytes {m : Memory} (hm : Memory.wf m) (a : Nat) (bs : List Byte) :
    readBytes (writeBytes a bs m) a bs.length = bs := by
  induction bs generalizing a m with
  | nil => rfl
  | cons b bs ih =>
    simp only [writeBytes, List.length_cons, readBytes, ih (writeByte_wf hm a b)]
    rw [readByte_writeBytes_out _ (by omega), readByte_writeByte_self hm]

/-- The four bytes of a word are the word (R48). -/
@[simp] theorem leWord_leBytes (v : Word) : leWord (leBytes 4 v) = v := by
  apply BitVec.eq_of_getLsbD_eq
  intro i hi
  simp [leBytes, leWord]
  grind

end Sys2Proof.Machine
end

