-- ==== Sys2Proof/Laws/Ops.lean ====
section
/-! SUPPORT. What each shared operation can do, said once: the load and store primitives, the shared instruction forms,
and the one shape lemma of `exec` that later proofs cite instead of unfolding the 42 meanings. -/

namespace Sys2Proof.Machine

/-! ## The check and the primitives -/

theorem validAccess_iff {m : Nat} {a : Word} {n : Nat} {e : Bool} :
    validAccess m a n e = true ↔ a.toNat < m ∧ a.toNat + n ≤ m ∧ (e = true → a.toNat % n = 0) := by
  cases e <;> simp [validAccess, and_assoc]

theorem memRead_of_valid {s : State} {a : Word} {w : Width} {e : Bool}
    (h : validAccess s.cfg.memSize a w.bytes e = true) :
    s.memRead a w e = .ok (leWord (readBytes s.mem a.toNat w.bytes)) := if_pos h

theorem memRead_of_invalid {s : State} {a : Word} {w : Width} {e : Bool}
    (h : ¬validAccess s.cfg.memSize a w.bytes e = true) : s.memRead a w e = .error ⟨.invalidRead, a⟩ := if_neg h

theorem memWrite_of_valid {s : State} {a v : Word} {w : Width} {e : Bool}
    (h : validAccess s.cfg.memSize a w.bytes e = true) :
    s.memWrite a w v e = .ok { s with mem := writeBytes a.toNat (leBytes w.bytes v) s.mem } := if_pos h

theorem memWrite_of_invalid {s : State} {a v : Word} {w : Width} {e : Bool}
    (h : ¬validAccess s.cfg.memSize a w.bytes e = true) : s.memWrite a w v e = .error ⟨.invalidWrite, a⟩ := if_neg h

/-- One byte, zero-extended (R43). -/
theorem leWord_readBytes_byte (m : Memory) (a : Nat) : leWord (readBytes m a 1) = (readByte m a).setWidth 32 := by
  simp [readBytes, leWord]

/-- Two bytes, little-endian, zero-extended (R43). -/
theorem leWord_readBytes_half (m : Memory) (a : Nat) :
    leWord (readBytes m a 2) = (readByte m (a + 1) ++ readByte m a).setWidth 32 := by
  apply BitVec.eq_of_getLsbD_eq
  intro i hi
  simp only [readBytes, leWord, BitVec.getLsbD_or, BitVec.getLsbD_shiftLeft, BitVec.getLsbD_setWidth,
    BitVec.getLsbD_append]
  interval_cases i <;> simp

/-- Four bytes, little-endian (R43). -/
theorem leWord_readBytes_word (m : Memory) (a : Nat) :
    leWord (readBytes m a 4) = readByte m (a + 3) ++ readByte m (a + 2) ++ readByte m (a + 1) ++ readByte m a := by
  apply BitVec.eq_of_getLsbD_eq
  intro i hi
  simp only [readBytes, leWord, BitVec.getLsbD_or, BitVec.getLsbD_shiftLeft, BitVec.getLsbD_setWidth,
    BitVec.getLsbD_append]
  interval_cases i <;> simp

/-! ## The shared forms -/

theorem finish_next {s t : State} {rd : RegIdx} {v : Word} (h : s.finish rd v = .next t) :
    t = (s.writeReg rd v).advance := by
  simpa [State.finish] using h.symm

theorem fail_next {s t : State} {f : Raised} (h : s.fail f = .next t) : t = s.raise f := by
  simpa [State.fail] using h.symm

/-- A load of a valid access completes with a register write; of an invalid one it raises InvalidRead (R43, R181). -/
theorem load_next {s t : State} {w : Width} {ext : Word → Word} {rd rs1 : RegIdx} {imm : BitVec 12}
    (h : load w ext rd rs1 imm s = .next t) :
    (validAccess s.cfg.memSize (effAddr s rs1 imm) w.bytes s.cfg.enforceAlign = true ∧
      ∃ v, t = (s.writeReg rd v).advance) ∨
    (¬validAccess s.cfg.memSize (effAddr s rs1 imm) w.bytes s.cfg.enforceAlign = true ∧
      t = s.raise ⟨.invalidRead, effAddr s rs1 imm⟩) := by
  unfold load State.memRead at h
  split at h <;> rename_i hm <;> split at hm <;> cases hm
  · exact .inl ⟨‹_›, _, finish_next h⟩
  · exact .inr ⟨‹_›, fail_next h⟩

/-- A store of a valid access completes with its bytes written; of an invalid one it raises InvalidWrite with none written
(R44, R181). -/
theorem store_next {s t : State} {w : Width} {rs1 rs2 : RegIdx} {imm : BitVec 12}
    (h : store w rs1 rs2 imm s = .next t) :
    (validAccess s.cfg.memSize (effAddr s rs1 imm) w.bytes s.cfg.enforceAlign = true ∧
      t = State.advance { s with
        mem := writeBytes (effAddr s rs1 imm).toNat (leBytes w.bytes (s.readReg rs2)) s.mem }) ∨
    (¬validAccess s.cfg.memSize (effAddr s rs1 imm) w.bytes s.cfg.enforceAlign = true ∧
      t = s.raise ⟨.invalidWrite, effAddr s rs1 imm⟩) := by
  unfold store State.memWrite at h
  split at h <;> rename_i hm <;> split at hm <;> cases hm
  · exact .inl ⟨‹_›, by simpa using h.symm⟩
  · exact .inr ⟨‹_›, fail_next h⟩

theorem alignedTarget_iff {p : Word} : alignedTarget p = true ↔ p.toNat % 4 = 0 := by simp [alignedTarget]

/-- A transfer sets the pc to an aligned target and raises MisalignedTarget of any other (R158). -/
theorem transfer_next {s t : State} {p : Word} (h : transfer p s = .next t) :
    (p.toNat % 4 = 0 ∧ t = s.setPc p) ∨ (p.toNat % 4 ≠ 0 ∧ t = s.raise ⟨.misalignedTarget, p⟩) := by
  unfold transfer at h
  split at h
  · exact .inl ⟨alignedTarget_iff.mp ‹_›, by simpa using h.symm⟩
  · exact .inr ⟨fun hp => ‹¬_› (alignedTarget_iff.mpr hp), fail_next h⟩

/-- A jump to an aligned target writes the link and the pc; to any other it raises MisalignedTarget with nothing written
(R158). -/
theorem jump_next {s t : State} {rd : RegIdx} {p : Word} (h : jump rd p s = .next t) :
    (p.toNat % 4 = 0 ∧ t = (s.writeReg rd s.nextPc).setPc p) ∨
    (p.toNat % 4 ≠ 0 ∧ t = s.raise ⟨.misalignedTarget, p⟩) := by
  unfold jump at h
  split at h
  · exact .inl ⟨alignedTarget_iff.mp ‹_›, by simpa using h.symm⟩
  · exact .inr ⟨fun hp => ‹¬_› (alignedTarget_iff.mpr hp), fail_next h⟩

/-- A syscall emits and advances, emits the notice and exits, or raises UnknownSyscall, by its number (R190). -/
theorem ecall_next {s t : State} (h : execEcall s = .next t) :
    (s.readReg s.cfg.syscallNumReg ∈ [1#32, 4#32, 11#32] ∧ ∃ bs, t = (s.emit bs).advance) ∨
    (s.readReg s.cfg.syscallNumReg = 10#32 ∧ t = (s.emit s.cfg.exitNotice).haltExit) ∨
    (s.readReg s.cfg.syscallNumReg ∉ [1#32, 4#32, 10#32, 11#32] ∧
      t = s.raise ⟨.unknownSyscall, s.readReg s.cfg.syscallNumReg⟩) := by
  unfold execEcall at h
  split at h
  · exact .inl ⟨by simp [*], _, by simpa using h.symm⟩
  split at h
  · exact .inl ⟨by simp [*], _, by simpa using h.symm⟩
  split at h
  · exact .inr (.inl ⟨‹_›, by simpa using h.symm⟩)
  split at h
  · exact .inl ⟨by simp [*], _, by simpa using h.symm⟩
  · exact .inr (.inr ⟨by simp [*], fail_next h⟩)

/-! ## Every instruction at once -/

/-- The store instruction of a width (R171). -/
def storeInstr (w : Width) (rs1 rs2 : RegIdx) (imm : BitVec 12) : Instr :=
  match w with
  | .byte => .sb rs1 rs2 imm
  | .half => .sh rs1 rs2 imm
  | .word => .sw rs1 rs2 imm

/-- The shapes a next state has: a fault taken, a register write with the sequential pc, a jump, a branch, a store,
console output, the exit. -/
theorem exec_next {i : Instr} {s t : State} (h : exec i s = .next t) :
    (∃ f : Raised, f.cause ≠ .none ∧ t = s.raise f) ∨
    (∃ rd v, i.dest = some rd ∧ t = (s.writeReg rd v).advance) ∨
    (∃ rd p, i.dest = some rd ∧ p.toNat % 4 = 0 ∧ t = (s.writeReg rd s.nextPc).setPc p) ∨
    (∃ p, p.toNat % 4 = 0 ∧ t = s.setPc p) ∨
    (∃ w rs1 rs2 imm, i = storeInstr w rs1 rs2 imm ∧
      validAccess s.cfg.memSize (effAddr s rs1 imm) w.bytes s.cfg.enforceAlign = true ∧
      t = State.advance { s with
        mem := writeBytes (effAddr s rs1 imm).toNat (leBytes w.bytes (s.readReg rs2)) s.mem }) ∨
    (i = .ecall ∧ ∃ bs, t = (s.emit bs).advance) ∨
    (i = .ecall ∧ s.readReg s.cfg.syscallNumReg = 10#32 ∧ t = (s.emit s.cfg.exitNotice).haltExit) := by
  cases i
  case lb | lh | lw | lbu | lhu =>
    rcases load_next h with ⟨_, v, rfl⟩ | ⟨_, rfl⟩
    · exact .inr (.inl ⟨_, v, rfl, rfl⟩)
    · exact .inl ⟨_, by simp, rfl⟩
  case sb rs1 rs2 imm =>
    rcases store_next h with ⟨hv, rfl⟩ | ⟨_, rfl⟩
    · exact .inr (.inr (.inr (.inr (.inl ⟨.byte, rs1, rs2, imm, rfl, hv, rfl⟩))))
    · exact .inl ⟨_, by simp, rfl⟩
  case sh rs1 rs2 imm =>
    rcases store_next h with ⟨hv, rfl⟩ | ⟨_, rfl⟩
    · exact .inr (.inr (.inr (.inr (.inl ⟨.half, rs1, rs2, imm, rfl, hv, rfl⟩))))
    · exact .inl ⟨_, by simp, rfl⟩
  case sw rs1 rs2 imm =>
    rcases store_next h with ⟨hv, rfl⟩ | ⟨_, rfl⟩
    · exact .inr (.inr (.inr (.inr (.inl ⟨.word, rs1, rs2, imm, rfl, hv, rfl⟩))))
    · exact .inl ⟨_, by simp, rfl⟩
  case beq | bne | blt | bge | bltu | bgeu =>
    rcases transfer_next h with ⟨hp, rfl⟩ | ⟨_, rfl⟩
    · exact .inr (.inr (.inr (.inl ⟨_, hp, rfl⟩)))
    · exact .inl ⟨_, by simp, rfl⟩
  case jal | jalr =>
    rcases jump_next h with ⟨hp, rfl⟩ | ⟨_, rfl⟩
    · exact .inr (.inr (.inl ⟨_, _, rfl, hp, rfl⟩))
    · exact .inl ⟨_, by simp, rfl⟩
  case ecall =>
    rcases ecall_next h with ⟨_, bs, rfl⟩ | ⟨hn, rfl⟩ | ⟨_, rfl⟩
    · exact .inr (.inr (.inr (.inr (.inr (.inl ⟨rfl, bs, rfl⟩)))))
    · exact .inr (.inr (.inr (.inr (.inr (.inr ⟨rfl, hn, rfl⟩)))))
    · exact .inl ⟨_, by simp, rfl⟩
  all_goals exact .inr (.inl ⟨_, _, rfl, finish_next h⟩)

end Sys2Proof.Machine
end

