-- ==== Sys2Proof/Laws/Forms.lean ====
section
/-! SUPPORT. Each shared instruction form in the terms of the statements' predicates: what the next state is when the form
completes, and when it raises. -/

namespace Sys2Proof.Machine

/-- Taking a fault records it and changes nothing else (R209). -/
theorem raise_records (s : State) (f : Raised) : RecordsFault s (s.raise f) f.cause f.info :=
  ⟨rfl, rfl, rfl, fun _ => rfl, rfl, fun _ => rfl, rfl, rfl⟩

/-- Moving the pc changes nothing else. -/
theorem setPc_moves (s : State) (p : Word) : MovesPc s (s.setPc p) p :=
  ⟨fun _ => rfl, rfl, fun _ => rfl, rfl, rfl, rfl, rfl, rfl⟩

/-- A register write with a pc update changes nothing else (R21). -/
theorem writeReg_setPc_writes (s : State) (rd : RegIdx) (v p : Word) :
    WritesReg s ((s.writeReg rd v).setPc p) rd v p :=
  ⟨fun r => by simp [readReg_writeReg], by simp, fun _ => by simp, by simp, by simp, by simp, by simp, by simp⟩

/-- Console output with the sequential pc changes nothing else (R29). -/
theorem emit_advance_emits (s : State) (bs : List Byte) : Emits s (s.emit bs).advance bs (s.pc + 4#32) :=
  ⟨rfl, fun _ => rfl, rfl, fun _ => rfl, rfl, rfl, rfl, rfl⟩

/-- Stored bytes with a pc update, in a canonical memory, change nothing else (R44). -/
theorem writeBytes_stores (s : State) (hm : Memory.wf s.mem) (ea : Word) (n : Nat) (v p : Word) :
    StoresBytes s { s with mem := writeBytes ea.toNat (leBytes n v) s.mem, pc := p } ea n v p := by
  refine ⟨fun a => ?_, fun _ => rfl, rfl, rfl, rfl, rfl, rfl, rfl⟩
  simp only [State.readMem]
  split
  · rename_i h
    have hb := readByte_writeBytes_in hm (a := ea.toNat) (bs := leBytes n v) (k := a - ea.toNat) (by simp; omega)
    rwa [leBytes_getElem, Nat.add_sub_cancel' h.1] at hb
  · rename_i h
    exact readByte_writeBytes_out _ (by simp; omega)

theorem finish_completes (s : State) (rd : RegIdx) {v v' : Word} (h : v = v') :
    ∃ t, s.finish rd v = .next t ∧ WritesReg s t rd v' (s.pc + 4#32) := by
  subst h
  exact ⟨(s.writeReg rd v).setPc (s.writeReg rd v).nextPc, rfl, by simpa using writeReg_setPc_writes s rd v _⟩

theorem fail_records (s : State) (c : Cause) (i : Word) : ∃ t, s.fail ⟨c, i⟩ = .next t ∧ RecordsFault s t c i :=
  ⟨_, rfl, raise_records s ⟨c, i⟩⟩

/-- `AccessOk` is the check that loads and stores make (R42). -/
theorem accessOk_iff {s : State} {ea : Word} {n : Nat} :
    AccessOk s ea n ↔ validAccess s.cfg.memSize ea n s.cfg.enforceAlign = true := validAccess_iff.symm

theorem load_completes {s : State} {w : Width} {ext : Word → Word} {rd rs1 : RegIdx} {imm : BitVec 12} {v : Word}
    (h : AccessOk s (effAddr s rs1 imm) w.bytes)
    (hv : ext (leWord (readBytes s.mem (effAddr s rs1 imm).toNat w.bytes)) = v) :
    ∃ t, load w ext rd rs1 imm s = .next t ∧ WritesReg s t rd v (s.pc + 4#32) := by
  rw [load, memRead_of_valid (accessOk_iff.mp h)]
  exact finish_completes s rd hv

theorem load_records {s : State} {w : Width} {ext : Word → Word} {rd rs1 : RegIdx} {imm : BitVec 12}
    (h : ¬AccessOk s (effAddr s rs1 imm) w.bytes) :
    ∃ t, load w ext rd rs1 imm s = .next t ∧ RecordsFault s t .invalidRead (effAddr s rs1 imm) := by
  rw [load, memRead_of_invalid fun hv => h (accessOk_iff.mpr hv)]
  exact fail_records _ _ _

theorem store_completes {s : State} {w : Width} {rs1 rs2 : RegIdx} {imm : BitVec 12} (hm : Memory.wf s.mem)
    (h : AccessOk s (effAddr s rs1 imm) w.bytes) :
    ∃ t, store w rs1 rs2 imm s = .next t ∧
      StoresBytes s t (effAddr s rs1 imm) w.bytes (s.readReg rs2) (s.pc + 4#32) := by
  rw [store, memWrite_of_valid (accessOk_iff.mp h)]
  exact ⟨_, rfl, writeBytes_stores s hm _ _ _ _⟩

theorem store_records {s : State} {w : Width} {rs1 rs2 : RegIdx} {imm : BitVec 12}
    (h : ¬AccessOk s (effAddr s rs1 imm) w.bytes) :
    ∃ t, store w rs1 rs2 imm s = .next t ∧ RecordsFault s t .invalidWrite (effAddr s rs1 imm) := by
  rw [store, memWrite_of_invalid fun hv => h (accessOk_iff.mpr hv)]
  exact fail_records _ _ _

theorem transfer_completes {s : State} {p : Word} (h : p.toNat % 4 = 0) :
    ∃ t, transfer p s = .next t ∧ MovesPc s t p := by
  rw [transfer, if_pos (alignedTarget_iff.mpr h)]
  exact ⟨_, rfl, setPc_moves s p⟩

theorem transfer_records {s : State} {p : Word} (h : p.toNat % 4 ≠ 0) :
    ∃ t, transfer p s = .next t ∧ RecordsFault s t .misalignedTarget p := by
  rw [transfer, if_neg fun ha => h (alignedTarget_iff.mp ha)]
  exact fail_records _ _ _

theorem jump_completes {s : State} {rd : RegIdx} {p : Word} (h : p.toNat % 4 = 0) :
    ∃ t, jump rd p s = .next t ∧ WritesReg s t rd s.nextPc p := by
  rw [jump, if_pos (alignedTarget_iff.mpr h)]
  exact ⟨_, rfl, writeReg_setPc_writes s rd _ p⟩

theorem jump_records {s : State} {rd : RegIdx} {p : Word} (h : p.toNat % 4 ≠ 0) :
    ∃ t, jump rd p s = .next t ∧ RecordsFault s t .misalignedTarget p := by
  rw [jump, if_neg fun ha => h (alignedTarget_iff.mp ha)]
  exact fail_records _ _ _

end Sys2Proof.Machine
end

