-- ==== Sys2Proof/Laws/Operands.lean ====
section
/-! SUPPORT. What each operand form, word computation and console text is, as the integer or list it denotes: the sums of
the addressing mode and of the transfer targets, the shifts, the upper immediate, the decimal text and the string scan. -/

namespace Sys2Proof.Machine

theorem u32_natCast (a : Word) : u32 (a.toNat : Int) = a := by simp [u32]

theorem u32_s32 (a : Word) : u32 (s32 a) = a := by simp [u32, s32]

/-- A word plus a sign-extended field is the wrapped integer sum (R150, R159, R160, R170). -/
theorem add_sext (a : Word) {n : Nat} (x : BitVec n) : a + sext x = u32 (a.toNat + x.toInt) := by
  rw [u32, BitVec.ofInt_add]
  simp [sext, BitVec.signExtend]

/-- `u32(pc + 4)` (R26). -/
theorem add_four (a : Word) : a + 4#32 = u32 (a.toNat + 4) := by
  rw [u32, BitVec.ofInt_add]
  simp

/-- The signed reading of a sign-extended field is the field's (R6). -/
theorem s32_sext {n : Nat} (x : BitVec n) (h : n ≤ 32) : s32 (sext x) = x.toInt := by
  simp [s32, sext, BitVec.toInt_signExtend_of_le h]

theorem upperImm_toNat (x : BitVec 20) : (upperImm x).toNat = x.toNat * 4096 := by
  have h := BitVec.toNat_append x 0#12
  simp only [Nat.shiftLeft_eq] at h
  exact h.trans (by simp)

/-- The shift count of a register operand is its value modulo 32 (R113). -/
theorem shiftCount_eq (b : Word) : shiftCount b = b.toNat % 32 := by simp [shiftCount, BitVec.extractLsb'_toNat]

/-- A left shift multiplies (R113). -/
theorem aluSll_eq (a : Word) (n : Nat) : aluSll a n = u32 (a.toNat * 2 ^ n) := by
  have h : ((a.toNat : Int) * (2 : Int) ^ n) = ((a.toNat * 2 ^ n : Nat) : Int) := by push_cast; rfl
  rw [u32, h, BitVec.ofInt_natCast]
  apply BitVec.eq_of_toNat_eq
  simp [aluSll, Nat.shiftLeft_eq]

/-- A logical right shift divides the unsigned reading (R117). -/
theorem aluSrl_eq (a : Word) (n : Nat) : aluSrl a n = u32 (a.toNat / 2 ^ n) := by
  have h : ((a.toNat : Int) / 2 ^ n) = ((a.toNat / 2 ^ n : Nat) : Int) := by push_cast; rfl
  rw [u32, h, BitVec.ofInt_natCast]
  apply BitVec.eq_of_toNat_eq
  simp only [aluSrl, BitVec.toNat_ushiftRight, Nat.shiftRight_eq_div_pow, BitVec.toNat_ofNat]
  exact (Nat.mod_eq_of_lt (Nat.lt_of_le_of_lt (Nat.div_le_self _ _) a.isLt)).symm

/-- MUL is the wrapped signed product (R121). -/
theorem aluMul_eq (a b : Word) : aluMul a b = u32 (s32 a * s32 b) := by
  rw [u32, BitVec.ofInt_mul]
  simp [aluMul]

/-- What the string scan collects: the bytes before the first zero byte or the end of its range (R192). -/
theorem scanString_spec (m : Memory) (fuel p : Nat) :
    (∀ k (h : k < (scanString m fuel p).length),
      k < fuel ∧ (scanString m fuel p)[k] = readByte m (p + k) ∧ (scanString m fuel p)[k] ≠ 0#8) ∧
    ((scanString m fuel p).length = fuel ∨ readByte m (p + (scanString m fuel p).length) = 0#8) := by
  induction fuel generalizing p with
  | zero => simp [scanString]
  | succ f ih =>
    unfold scanString
    split
    · simpa using ‹_›
    · obtain ⟨a, b⟩ := ih (p + 1)
      constructor
      · intro k hk
        cases k with
        | zero => simpa using ‹_›
        | succ k =>
          obtain ⟨h1, h2, h3⟩ := a k (by simpa using hk)
          refine ⟨by omega, ?_, by simpa using h3⟩
          rw [List.getElem_cons_succ, h2]
          congr 1
          omega
      · simp only [List.length_cons, Nat.add_right_cancel_iff]
        exact b.imp id fun b => by rw [← b]; congr 1; omega

end Sys2Proof.Machine
end

