-- ==== Sys2Proof/Laws/PerInstr.lean ====
section
/-! SUPPORT. Per-instruction statements about the syntax. Family MatchesTable: the encoder's word of an instruction is
under the instruction's row of spec/opcode_table.json, and that row is one of the 42. -/

namespace Sys2Proof.Laws

/-- Clearing the operand fields of an R word leaves its opcode, funct3 and funct7. -/
theorem rWord_mask (f7 : BitVec 7) (rs2 rs1 : RegIdx) (f3 : BitVec 3) (rd : RegIdx) (o : Opcode) :
    rWord f7 rs2 rs1 f3 rd o &&& 0xFE00707F#32 = rWord f7 0#5 0#5 f3 0#5 o := by
  apply BitVec.eq_of_getLsbD_eq
  intro i hi
  simp only [rWord, BitVec.getLsbD_append, BitVec.getLsbD_and]
  interval_cases i <;> simp

/-- Clearing the operand fields of a shift-immediate word leaves its opcode, funct3 and shift type. -/
theorem shiftWord_mask (t : BitVec 7) (shamt : BitVec 5) (rs1 : RegIdx) (f3 : BitVec 3) (rd : RegIdx) :
    shiftWord t shamt rs1 f3 rd &&& 0xFE00707F#32 = shiftWord t 0#5 0#5 f3 0#5 := by
  apply BitVec.eq_of_getLsbD_eq
  intro i hi
  simp only [shiftWord, BitVec.getLsbD_append, BitVec.getLsbD_and]
  interval_cases i <;> simp

/-- Clearing the operand fields of an I word leaves its opcode and funct3. -/
theorem iWord_mask (imm : BitVec 12) (rs1 : RegIdx) (f3 : BitVec 3) (rd : RegIdx) (o : Opcode) :
    iWord imm rs1 f3 rd o &&& 0x0000707F#32 = iWord 0#12 0#5 f3 0#5 o := by
  apply BitVec.eq_of_getLsbD_eq
  intro i hi
  simp only [iWord, BitVec.getLsbD_append, BitVec.getLsbD_and]
  interval_cases i <;> simp

/-- Clearing everything but the opcode of an I word. -/
theorem iWord_opcode_mask (imm : BitVec 12) (rs1 : RegIdx) (f3 : BitVec 3) (rd : RegIdx) (o : Opcode) :
    iWord imm rs1 f3 rd o &&& 0x0000007F#32 = iWord 0#12 0#5 0#3 0#5 o := by
  apply BitVec.eq_of_getLsbD_eq
  intro i hi
  simp only [iWord, BitVec.getLsbD_append, BitVec.getLsbD_and]
  interval_cases i <;> simp

/-- Clearing the operand fields of an S word leaves its opcode and funct3. -/
theorem sWord_mask (imm : BitVec 12) (rs2 rs1 : RegIdx) (f3 : BitVec 3) :
    sWord imm rs2 rs1 f3 &&& 0x0000707F#32 = sWord 0#12 0#5 0#5 f3 := by
  apply BitVec.eq_of_getLsbD_eq
  intro i hi
  simp only [sWord, BitVec.getLsbD_append, BitVec.getLsbD_and, BitVec.getLsbD_extractLsb']
  interval_cases i <;> simp

/-- Clearing the operand fields of a B word leaves its opcode and funct3. -/
theorem bWord_mask (off : BitVec 13) (rs2 rs1 : RegIdx) (f3 : BitVec 3) :
    bWord off rs2 rs1 f3 &&& 0x0000707F#32 = bWord 0#13 0#5 0#5 f3 := by
  apply BitVec.eq_of_getLsbD_eq
  intro i hi
  simp only [bWord, BitVec.getLsbD_append, BitVec.getLsbD_and, BitVec.getLsbD_extractLsb']
  interval_cases i <;> simp

/-- Clearing everything but the opcode of a U word. -/
theorem uWord_mask (imm : BitVec 20) (rd : RegIdx) (o : Opcode) :
    uWord imm rd o &&& 0x0000007F#32 = uWord 0#20 0#5 o := by
  apply BitVec.eq_of_getLsbD_eq
  intro i hi
  simp only [uWord, BitVec.getLsbD_append, BitVec.getLsbD_and]
  interval_cases i <;> simp

/-- Clearing everything but the opcode of a J word. -/
theorem jWord_mask (off : BitVec 21) (rd : RegIdx) : jWord off rd &&& 0x0000007F#32 = jWord 0#21 0#5 := by
  apply BitVec.eq_of_getLsbD_eq
  intro i hi
  simp only [jWord, BitVec.getLsbD_append, BitVec.getLsbD_and, BitVec.getLsbD_extractLsb']
  interval_cases i <;> simp

namespace MatchesTable

/-- The encoder's word matches the instruction's row of the opcode table. -/
def Statement (i : Instr) : Prop := i.tableRow ∈ tableRows ∧ i.tableRow.Matches (encode i)

theorem add (rd rs1 rs2 : RegIdx) : Statement (.add rd rs1 rs2) :=
  ⟨by simp only [Instr.tableRow]; decide, (rWord_mask ..).trans (by simp only [Instr.tableRow]; decide)⟩

theorem sub (rd rs1 rs2 : RegIdx) : Statement (.sub rd rs1 rs2) :=
  ⟨by simp only [Instr.tableRow]; decide, (rWord_mask ..).trans (by simp only [Instr.tableRow]; decide)⟩

theorem sll (rd rs1 rs2 : RegIdx) : Statement (.sll rd rs1 rs2) :=
  ⟨by simp only [Instr.tableRow]; decide, (rWord_mask ..).trans (by simp only [Instr.tableRow]; decide)⟩

theorem slt (rd rs1 rs2 : RegIdx) : Statement (.slt rd rs1 rs2) :=
  ⟨by simp only [Instr.tableRow]; decide, (rWord_mask ..).trans (by simp only [Instr.tableRow]; decide)⟩

theorem sltu (rd rs1 rs2 : RegIdx) : Statement (.sltu rd rs1 rs2) :=
  ⟨by simp only [Instr.tableRow]; decide, (rWord_mask ..).trans (by simp only [Instr.tableRow]; decide)⟩

theorem xor (rd rs1 rs2 : RegIdx) : Statement (.xor rd rs1 rs2) :=
  ⟨by simp only [Instr.tableRow]; decide, (rWord_mask ..).trans (by simp only [Instr.tableRow]; decide)⟩

theorem srl (rd rs1 rs2 : RegIdx) : Statement (.srl rd rs1 rs2) :=
  ⟨by simp only [Instr.tableRow]; decide, (rWord_mask ..).trans (by simp only [Instr.tableRow]; decide)⟩

theorem sra (rd rs1 rs2 : RegIdx) : Statement (.sra rd rs1 rs2) :=
  ⟨by simp only [Instr.tableRow]; decide, (rWord_mask ..).trans (by simp only [Instr.tableRow]; decide)⟩

theorem or (rd rs1 rs2 : RegIdx) : Statement (.or rd rs1 rs2) :=
  ⟨by simp only [Instr.tableRow]; decide, (rWord_mask ..).trans (by simp only [Instr.tableRow]; decide)⟩

theorem and (rd rs1 rs2 : RegIdx) : Statement (.and rd rs1 rs2) :=
  ⟨by simp only [Instr.tableRow]; decide, (rWord_mask ..).trans (by simp only [Instr.tableRow]; decide)⟩

theorem mul (rd rs1 rs2 : RegIdx) : Statement (.mul rd rs1 rs2) :=
  ⟨by simp only [Instr.tableRow]; decide, (rWord_mask ..).trans (by simp only [Instr.tableRow]; decide)⟩

theorem mulh (rd rs1 rs2 : RegIdx) : Statement (.mulh rd rs1 rs2) :=
  ⟨by simp only [Instr.tableRow]; decide, (rWord_mask ..).trans (by simp only [Instr.tableRow]; decide)⟩

theorem div (rd rs1 rs2 : RegIdx) : Statement (.div rd rs1 rs2) :=
  ⟨by simp only [Instr.tableRow]; decide, (rWord_mask ..).trans (by simp only [Instr.tableRow]; decide)⟩

theorem rem (rd rs1 rs2 : RegIdx) : Statement (.rem rd rs1 rs2) :=
  ⟨by simp only [Instr.tableRow]; decide, (rWord_mask ..).trans (by simp only [Instr.tableRow]; decide)⟩

theorem addi (rd rs1 : RegIdx) (imm : BitVec 12) : Statement (.addi rd rs1 imm) :=
  ⟨by simp only [Instr.tableRow]; decide, (iWord_mask ..).trans (by simp only [Instr.tableRow]; decide)⟩

theorem slti (rd rs1 : RegIdx) (imm : BitVec 12) : Statement (.slti rd rs1 imm) :=
  ⟨by simp only [Instr.tableRow]; decide, (iWord_mask ..).trans (by simp only [Instr.tableRow]; decide)⟩

theorem sltiu (rd rs1 : RegIdx) (imm : BitVec 12) : Statement (.sltiu rd rs1 imm) :=
  ⟨by simp only [Instr.tableRow]; decide, (iWord_mask ..).trans (by simp only [Instr.tableRow]; decide)⟩

theorem xori (rd rs1 : RegIdx) (imm : BitVec 12) : Statement (.xori rd rs1 imm) :=
  ⟨by simp only [Instr.tableRow]; decide, (iWord_mask ..).trans (by simp only [Instr.tableRow]; decide)⟩

theorem ori (rd rs1 : RegIdx) (imm : BitVec 12) : Statement (.ori rd rs1 imm) :=
  ⟨by simp only [Instr.tableRow]; decide, (iWord_mask ..).trans (by simp only [Instr.tableRow]; decide)⟩

theorem andi (rd rs1 : RegIdx) (imm : BitVec 12) : Statement (.andi rd rs1 imm) :=
  ⟨by simp only [Instr.tableRow]; decide, (iWord_mask ..).trans (by simp only [Instr.tableRow]; decide)⟩

theorem slli (rd rs1 : RegIdx) (shamt : BitVec 5) : Statement (.slli rd rs1 shamt) :=
  ⟨by simp only [Instr.tableRow]; decide, (shiftWord_mask ..).trans (by simp only [Instr.tableRow]; decide)⟩

theorem srli (rd rs1 : RegIdx) (shamt : BitVec 5) : Statement (.srli rd rs1 shamt) :=
  ⟨by simp only [Instr.tableRow]; decide, (shiftWord_mask ..).trans (by simp only [Instr.tableRow]; decide)⟩

theorem srai (rd rs1 : RegIdx) (shamt : BitVec 5) : Statement (.srai rd rs1 shamt) :=
  ⟨by simp only [Instr.tableRow]; decide, (shiftWord_mask ..).trans (by simp only [Instr.tableRow]; decide)⟩

theorem lb (rd rs1 : RegIdx) (imm : BitVec 12) : Statement (.lb rd rs1 imm) :=
  ⟨by simp only [Instr.tableRow]; decide, (iWord_mask ..).trans (by simp only [Instr.tableRow]; decide)⟩

theorem lh (rd rs1 : RegIdx) (imm : BitVec 12) : Statement (.lh rd rs1 imm) :=
  ⟨by simp only [Instr.tableRow]; decide, (iWord_mask ..).trans (by simp only [Instr.tableRow]; decide)⟩

theorem lw (rd rs1 : RegIdx) (imm : BitVec 12) : Statement (.lw rd rs1 imm) :=
  ⟨by simp only [Instr.tableRow]; decide, (iWord_mask ..).trans (by simp only [Instr.tableRow]; decide)⟩

theorem lbu (rd rs1 : RegIdx) (imm : BitVec 12) : Statement (.lbu rd rs1 imm) :=
  ⟨by simp only [Instr.tableRow]; decide, (iWord_mask ..).trans (by simp only [Instr.tableRow]; decide)⟩

theorem lhu (rd rs1 : RegIdx) (imm : BitVec 12) : Statement (.lhu rd rs1 imm) :=
  ⟨by simp only [Instr.tableRow]; decide, (iWord_mask ..).trans (by simp only [Instr.tableRow]; decide)⟩

theorem sb (rs1 rs2 : RegIdx) (imm : BitVec 12) : Statement (.sb rs1 rs2 imm) :=
  ⟨by simp only [Instr.tableRow]; decide, (sWord_mask ..).trans (by simp only [Instr.tableRow]; decide)⟩

theorem sh (rs1 rs2 : RegIdx) (imm : BitVec 12) : Statement (.sh rs1 rs2 imm) :=
  ⟨by simp only [Instr.tableRow]; decide, (sWord_mask ..).trans (by simp only [Instr.tableRow]; decide)⟩

theorem sw (rs1 rs2 : RegIdx) (imm : BitVec 12) : Statement (.sw rs1 rs2 imm) :=
  ⟨by simp only [Instr.tableRow]; decide, (sWord_mask ..).trans (by simp only [Instr.tableRow]; decide)⟩

theorem beq (rs1 rs2 : RegIdx) (off : BitVec 13) : Statement (.beq rs1 rs2 off) :=
  ⟨by simp only [Instr.tableRow]; decide, (bWord_mask ..).trans (by simp only [Instr.tableRow]; decide)⟩

theorem bne (rs1 rs2 : RegIdx) (off : BitVec 13) : Statement (.bne rs1 rs2 off) :=
  ⟨by simp only [Instr.tableRow]; decide, (bWord_mask ..).trans (by simp only [Instr.tableRow]; decide)⟩

theorem blt (rs1 rs2 : RegIdx) (off : BitVec 13) : Statement (.blt rs1 rs2 off) :=
  ⟨by simp only [Instr.tableRow]; decide, (bWord_mask ..).trans (by simp only [Instr.tableRow]; decide)⟩

theorem bge (rs1 rs2 : RegIdx) (off : BitVec 13) : Statement (.bge rs1 rs2 off) :=
  ⟨by simp only [Instr.tableRow]; decide, (bWord_mask ..).trans (by simp only [Instr.tableRow]; decide)⟩

theorem bltu (rs1 rs2 : RegIdx) (off : BitVec 13) : Statement (.bltu rs1 rs2 off) :=
  ⟨by simp only [Instr.tableRow]; decide, (bWord_mask ..).trans (by simp only [Instr.tableRow]; decide)⟩

theorem bgeu (rs1 rs2 : RegIdx) (off : BitVec 13) : Statement (.bgeu rs1 rs2 off) :=
  ⟨by simp only [Instr.tableRow]; decide, (bWord_mask ..).trans (by simp only [Instr.tableRow]; decide)⟩

theorem jal (rd : RegIdx) (off : BitVec 21) : Statement (.jal rd off) :=
  ⟨by simp only [Instr.tableRow]; decide, (jWord_mask ..).trans (by simp only [Instr.tableRow]; decide)⟩

theorem jalr (rd rs1 : RegIdx) (imm : BitVec 12) : Statement (.jalr rd rs1 imm) :=
  ⟨by simp only [Instr.tableRow]; decide, (iWord_opcode_mask ..).trans (by simp only [Instr.tableRow]; decide)⟩

theorem lui (rd : RegIdx) (imm20 : BitVec 20) : Statement (.lui rd imm20) :=
  ⟨by simp only [Instr.tableRow]; decide, (uWord_mask ..).trans (by simp only [Instr.tableRow]; decide)⟩

theorem auipc (rd : RegIdx) (imm20 : BitVec 20) : Statement (.auipc rd imm20) :=
  ⟨by simp only [Instr.tableRow]; decide, (uWord_mask ..).trans (by simp only [Instr.tableRow]; decide)⟩

theorem ecall : Statement (.ecall) :=
  ⟨by simp only [Instr.tableRow]; decide, (iWord_opcode_mask ..).trans (by simp only [Instr.tableRow]; decide)⟩

end MatchesTable

end Sys2Proof.Laws
end

