-- ==== Sys2Proof/Laws/Step.lean ====
section
/-! SUPPORT. What one step can do, said once. -/

namespace Sys2Proof.Machine

/-- The fetch gives the little-endian word of the four bytes at the pc, or raises InvalidRead(pc) (R101). -/
theorem fetch_cases (s : State) :
    (s.pc.toNat + 4 ≤ s.cfg.memSize ∧ fetch s = .ok (leWord (readBytes s.mem s.pc.toNat 4))) ∨
    (s.cfg.memSize < s.pc.toNat + 4 ∧ fetch s = .error ⟨.invalidRead, s.pc⟩) := by
  by_cases h : s.pc.toNat + 4 ≤ s.cfg.memSize
  · exact .inl ⟨h, memRead_of_valid (validAccess_iff.mpr ⟨by omega, h, by simp⟩)⟩
  · refine .inr ⟨by omega, memRead_of_invalid fun hv => h ?_⟩
    exact (validAccess_iff.mp hv).2.1

/-- The word that a step fetches is the one the four bytes at the pc spell (R101). -/
theorem fetch_eq_ok {s : State} {w : Word} : fetch s = .ok w ↔ FetchedWord s w := by
  rcases fetch_cases s with ⟨h, hf⟩ | ⟨h, hf⟩
  · rw [hf, leWord_readBytes_word]
    exact ⟨fun he => ⟨h, (Except.ok.inj he).symm⟩, fun hw => congrArg _ hw.2.symm⟩
  · rw [hf]
    exact ⟨fun he => (nomatch he), fun hw => absurd hw.1 (by omega)⟩

/-- A step that answers a next state ran from a RUNNING state: it raised a fetch fault, raised InvalidInstruction, or
executed the instruction the fetched word decodes to. -/
theorem step_next {s t : State} (h : step s = .next t) :
    s.status = .running ∧
    ((s.cfg.memSize < s.pc.toNat + 4 ∧ t = s.raise ⟨.invalidRead, s.pc⟩) ∨
     (∃ w e, fetch s = .ok w ∧ decode w = .error e ∧ t = s.raise ⟨.invalidInstruction, w⟩) ∨
     (∃ w i, fetch s = .ok w ∧ decode w = .ok i ∧ exec i s = .next t)) := by
  unfold step at h
  split at h
  · refine ⟨‹_›, ?_⟩
    rcases fetch_cases s with ⟨_, hf⟩ | ⟨hb, hf⟩
    · rw [hf] at h
      dsimp only at h
      split at h
      · exact .inr (.inl ⟨_, _, hf, ‹_›, fail_next h⟩)
      · exact .inr (.inr ⟨_, _, hf, ‹_›, h⟩)
    · rw [hf] at h
      exact .inl ⟨hb, fail_next h⟩
  · cases h

end Sys2Proof.Machine
end

