-- ==== Sys2Proof/Tests/Slice0.lean ====
section
/-! SUPPORT. The model's own tests. Expected values come from the spec: words are written out bit by bit from 30_encoding.md
R72 to R91, a step test cites its row of 95_test_vectors.md. Then, for each obligation with hypotheses, a witness: a concrete
state and operands that meet them together. -/

namespace Sys2Proof.Tests

open Sys2Proof Sys2Proof.Machine

/-! ## Helpers -/

/-- The result is a next state of which `P` holds. -/
def nextSat (r : Result) (P : State → Prop) [DecidablePred P] : Bool :=
  match r with
  | .next t => decide (P t)
  | .fault _ => false
  | .refused _ => false

theorem exists_next {r : Result} {P : State → Prop} [DecidablePred P] (h : nextSat r P = true) :
    ∃ t, r = .next t ∧ P t := by
  cases r with
  | next t => exact ⟨t, rfl, of_decide_eq_true h⟩
  | fault _ => cases h
  | refused _ => cases h

/-- Reset, with a pc, register values and bytes of memory. -/
def atPc (pc : Word) (rs : List (RegIdx × Word)) (bytes : List Host.Cell) : State :=
  rs.foldl (fun s p => s.writeReg p.1 p.2)
    { State.reset with pc := pc, mem := bytes.foldl (fun m c => writeByte c.1 c.2 m) [] }

/-- The same with a word at the pc. -/
def holding (w : Nat) (pc : Word) (rs : List (RegIdx × Word)) (bytes : List Host.Cell) : State :=
  (atPc pc rs bytes).withFetchWord 32 w

/-- One step on the word ends in a state of which `P` holds. -/
abbrev runs (w : Nat) (s : State) (P : State → Prop) [DecidablePred P] : Prop :=
  nextSat (step (s.withFetchWord 32 w)) P = true

abbrev Faulted (t : State) (c : Cause) (info : Word) : Prop := t.status = .faulted ∧ t.cause = c ∧ t.info = info

def bytesEFCDAB89 : List Host.Cell := [(0x100, 0xEF#8), (0x101, 0xCD#8), (0x102, 0xAB#8), (0x103, 0x89#8)]
def bytes11223344 : List Host.Cell := [(0x100, 0x11#8), (0x101, 0x22#8), (0x102, 0x33#8), (0x103, 0x44#8)]

/-! ## WellFormed: each check refuses an ill-formed term -/

theorem test_wf_refuses_odd_branch_offsets :
    Instr.wf (.beq 1#5 2#5 1#13) = false ∧ Instr.wf (.bne 1#5 2#5 3#13) = false ∧
    Instr.wf (.blt 1#5 2#5 5#13) = false ∧ Instr.wf (.bge 1#5 2#5 (-1#13)) = false ∧
    Instr.wf (.bltu 1#5 2#5 7#13) = false ∧ Instr.wf (.bgeu 1#5 2#5 0xFFF#13) = false := by decide

theorem test_wf_refuses_an_odd_jump_offset : Instr.wf (.jal 1#5 0x1F#21) = false := by decide

/-! ## Decode: words written out from the encodings of 30_encoding.md -/

/-- funct7, rs2, rs1, funct3, rd, opcode (R72, R86): x5, x6, x7. -/
theorem test_decode_op :
    decode 0b0000000_00111_00110_000_00101_0110011#32 = .ok (.add 5#5 6#5 7#5) ∧
    decode 0b0100000_00111_00110_000_00101_0110011#32 = .ok (.sub 5#5 6#5 7#5) ∧
    decode 0b0000000_00111_00110_001_00101_0110011#32 = .ok (.sll 5#5 6#5 7#5) ∧
    decode 0b0000000_00111_00110_010_00101_0110011#32 = .ok (.slt 5#5 6#5 7#5) ∧
    decode 0b0000000_00111_00110_011_00101_0110011#32 = .ok (.sltu 5#5 6#5 7#5) ∧
    decode 0b0000000_00111_00110_100_00101_0110011#32 = .ok (.xor 5#5 6#5 7#5) ∧
    decode 0b0000000_00111_00110_101_00101_0110011#32 = .ok (.srl 5#5 6#5 7#5) ∧
    decode 0b0100000_00111_00110_101_00101_0110011#32 = .ok (.sra 5#5 6#5 7#5) ∧
    decode 0b0000000_00111_00110_110_00101_0110011#32 = .ok (.or 5#5 6#5 7#5) ∧
    decode 0b0000000_00111_00110_111_00101_0110011#32 = .ok (.and 5#5 6#5 7#5) := by decide

/-- funct7 `0000001` (R86). -/
theorem test_decode_muldiv :
    decode 0b0000001_00111_00110_000_00101_0110011#32 = .ok (.mul 5#5 6#5 7#5) ∧
    decode 0b0000001_00111_00110_001_00101_0110011#32 = .ok (.mulh 5#5 6#5 7#5) ∧
    decode 0b0000001_00111_00110_100_00101_0110011#32 = .ok (.div 5#5 6#5 7#5) ∧
    decode 0b0000001_00111_00110_110_00101_0110011#32 = .ok (.rem 5#5 6#5 7#5) := by decide

/-- imm[11:0], rs1, funct3, rd, opcode (R73, R87). -/
theorem test_decode_opImm :
    decode 0b111111111111_00110_000_00101_0010011#32 = .ok (.addi 5#5 6#5 (-1#12)) ∧
    decode 0b100000000000_00110_010_00101_0010011#32 = .ok (.slti 5#5 6#5 0x800#12) ∧
    decode 0b000000000001_00110_011_00101_0010011#32 = .ok (.sltiu 5#5 6#5 1#12) ∧
    decode 0b010101010101_00110_100_00101_0010011#32 = .ok (.xori 5#5 6#5 0x555#12) ∧
    decode 0b000011110000_00110_110_00101_0010011#32 = .ok (.ori 5#5 6#5 0x0F0#12) ∧
    decode 0b011111111111_00110_111_00101_0010011#32 = .ok (.andi 5#5 6#5 0x7FF#12) := by decide

/-- shtype, shamt, rs1, funct3, rd, opcode (R83, R87). -/
theorem test_decode_shifts :
    decode 0b0000000_11111_00110_001_00101_0010011#32 = .ok (.slli 5#5 6#5 31#5) ∧
    decode 0b0000000_00100_00110_101_00101_0010011#32 = .ok (.srli 5#5 6#5 4#5) ∧
    decode 0b0100000_10001_00110_101_00101_0010011#32 = .ok (.srai 5#5 6#5 17#5) := by decide

/-- imm[11:0], rs1, funct3, rd, opcode (R73, R88). -/
theorem test_decode_load :
    decode 0b000000001000_00110_000_00101_0000011#32 = .ok (.lb 5#5 6#5 8#12) ∧
    decode 0b000000001000_00110_001_00101_0000011#32 = .ok (.lh 5#5 6#5 8#12) ∧
    decode 0b111111111100_00110_010_00101_0000011#32 = .ok (.lw 5#5 6#5 (-4#12)) ∧
    decode 0b000000001000_00110_100_00101_0000011#32 = .ok (.lbu 5#5 6#5 8#12) ∧
    decode 0b000000001000_00110_101_00101_0000011#32 = .ok (.lhu 5#5 6#5 8#12) := by decide

/-- imm[11:5], rs2, rs1, funct3, imm[4:0], opcode (R74, R88): displacements 2047, -4 and 40. -/
theorem test_decode_store :
    decode 0b0111111_00111_00110_000_11111_0100011#32 = .ok (.sb 6#5 7#5 0x7FF#12) ∧
    decode 0b1111111_00111_00110_001_11100_0100011#32 = .ok (.sh 6#5 7#5 (-4#12)) ∧
    decode 0b0000001_00111_00110_010_01000_0100011#32 = .ok (.sw 6#5 7#5 40#12) := by decide

/-- imm[12], imm[10:5], rs2, rs1, funct3, imm[4:1], imm[11], opcode (R75, R80): each offset bit in its place. -/
theorem test_decode_branch :
    decode 0b0_000000_00111_00110_000_1000_0_1100011#32 = .ok (.beq 6#5 7#5 16#13) ∧
    decode 0b1_111111_00000_00101_001_1100_1_1100011#32 = .ok (.bne 5#5 0#5 (-8#13)) ∧
    decode 0b0_000000_00111_00110_100_0000_1_1100011#32 = .ok (.blt 6#5 7#5 0x800#13) ∧
    decode 0b0_100000_00111_00110_101_0000_0_1100011#32 = .ok (.bge 6#5 7#5 0x400#13) ∧
    decode 0b1_000000_00111_00110_110_0000_0_1100011#32 = .ok (.bltu 6#5 7#5 0x1000#13) ∧
    decode 0b0_000001_00111_00110_111_0001_0_1100011#32 = .ok (.bgeu 6#5 7#5 34#13) := by decide

/-- imm[20], imm[10:1], imm[11], imm[19:12], rd, opcode (R77, R82): each offset bit in its place. -/
theorem test_decode_jal :
    decode 0b0_0000010000_0_00000000_00001_1101111#32 = .ok (.jal 1#5 0x20#21) ∧
    decode 0b0_0000000000_1_00000000_00001_1101111#32 = .ok (.jal 1#5 0x800#21) ∧
    decode 0b0_0000000000_0_10000001_00001_1101111#32 = .ok (.jal 1#5 0x81000#21) ∧
    decode 0b1_1111111110_1_11111111_00001_1101111#32 = .ok (.jal 1#5 (-4#21)) := by decide

/-- JALR with its canonical funct3 and with another one (R160, R90). -/
theorem test_decode_jalr :
    decode 0b111111111100_00101_000_00101_1100111#32 = .ok (.jalr 5#5 5#5 (-4#12)) ∧
    decode 0b000000010000_00110_111_00001_1100111#32 = .ok (.jalr 1#5 6#5 16#12) := by decide

/-- imm[31:12], rd, opcode (R76, R81). -/
theorem test_decode_upper :
    decode 0b10001001101010111101_00101_0110111#32 = .ok (.lui 5#5 0x89ABD#20) ∧
    decode 0b00000000000000000001_00101_0010111#32 = .ok (.auipc 5#5 1#20) := by decide

/-- The canonical SYSTEM word, the EBREAK word and a CSR word (R190, R197). -/
theorem test_decode_system :
    decode 0b000000000000_00000_000_00000_1110011#32 = .ok .ecall ∧
    decode 0b000000000001_00000_000_00000_1110011#32 = .ok .ecall ∧
    decode 0b001100000000_00110_001_00101_1110011#32 = .ok .ecall := by decide

/-- Each reason for which a word or a byte string is refused (R89; TA47, TA49, TB, TC22, TD15, TE22, TH1 to TH3). -/
theorem test_decode_refuses :
    decode 0x0FF0000F#32 = .error .unrecognisedOpcode ∧ decode 0x00000000#32 = .error .unrecognisedOpcode ∧
    decode 0xFFFFFFFF#32 = .error .unrecognisedOpcode ∧ decode 0x027322B3#32 = .error .unrecognisedOperation ∧
    decode 0x407312B3#32 = .error .unrecognisedOperation ∧ decode 0x40031293#32 = .error .reservedShift ∧
    decode 0x00833283#32 = .error .unrecognisedLoadWidth ∧ decode 0x00733423#32 = .error .unrecognisedStoreWidth ∧
    decode 0x00732863#32 = .error .unrecognisedComparison ∧
    decodeBytes [0xB3#8, 0x02#8, 0x73#8] = .error .truncated := by decide

/-- Bytes in memory order (R48, TI4), and the table's numbering of a row's word. -/
theorem test_decode_bytes :
    decodeBytes [0xB3#8, 0x02#8, 0x73#8, 0x00#8, 0xAA#8] = .ok (.add 5#5 6#5 7#5, [0xAA#8]) ∧
    decodeTableWord 32 0x007302B3 = some (.add 5#5 6#5 7#5) ∧ decodeTableWord 32 0x00733423 = none ∧
    encodeBytes (.add 5#5 6#5 7#5) = [0xB3#8, 0x02#8, 0x73#8, 0x00#8] := by decide

/-! ## Reset, memory, fetch, registers -/

theorem test_reset_meets_the_invariant : State.reset.Inv := by decide

theorem test_reset_memory_is_canonical : Memory.wf State.reset.mem := by decide

/-- TI6: every piece of state after reset, from a state with none of it at its reset value. -/
theorem test_reset_from_a_halted_state :
    ((atPc 0x44#32 [(5, 7#32)] [(0x44, 1#8)]).emit [1#8] |>.raise ⟨.unknownSyscall, 9#32⟩).applyReset = State.reset := by
  decide

/-- Writing what an unlisted address reads as removes the entry; a write in the middle keeps the order. -/
theorem test_memory_stays_canonical :
    writeByte 5 0x00#8 [(4, 1#8), (5, 2#8), (6, 3#8)] = [(4, 1#8), (6, 3#8)] ∧
    writeByte 5 0x09#8 [(4, 1#8), (6, 3#8)] = [(4, 1#8), (5, 9#8), (6, 3#8)] := by decide

/-- 20_memory.md R49: `0xAABBCCDD` stored at `a`. -/
theorem test_mixed_widths :
    (State.memWrite (atPc 0#32 [] []) 0x100#32 .word 0xAABBCCDD#32 true).toOption.map (fun t =>
      ((t.memRead 0x100#32 .byte true).toOption, (t.memRead 0x101#32 .byte true).toOption,
       (t.memRead 0x100#32 .half true).toOption, (t.memRead 0x102#32 .half true).toOption)) =
    some (some 0xDD#32, some 0xCC#32, some 0xCCDD#32, some 0xAABB#32) := by decide

/-- R46: with alignment not enforced a misaligned access inside the bound succeeds. -/
theorem test_misaligned_when_not_enforced :
    (State.memRead (atPc 0#32 [] bytesEFCDAB89) 0x101#32 .half false).toOption = some 0xABCD#32 := by decide

/-- TI1 -/
theorem test_fetch_at_the_bound :
    nextSat (step (atPc 0x00100000#32 [] [])) (fun t => Faulted t .invalidRead 0x00100000#32 ∧ t.pc = 0x00100000#32) := by
  decide

/-- TI2 -/
theorem test_last_word_of_memory_runs :
    runs 0x00100293 (atPc 0x000FFFFC#32 [] []) fun t => t.pc = 0x00100000#32 ∧ t.readReg 5#5 = 1#32 := by decide

/-- TI3 -/
theorem test_halted_has_no_step :
    step (State.reset.raise ⟨.invalidRead, 2#32⟩) = .fault .halted ∧ step State.reset.haltExit = .fault .halted := by
  exact ⟨rfl, rfl⟩

/-- TI5: the first step after reset with nothing placed reads the word zero. -/
theorem test_zero_memory_faults :
    nextSat (step State.reset) (fun t => Faulted t .invalidInstruction 0#32 ∧ t.pc = 0#32) := by decide

/-- R23 -/
theorem test_register_aliases :
    Reg.t 0 = 5#5 ∧ Reg.t 3 = 28#5 ∧ Reg.t 6 = 31#5 ∧ Reg.s 0 = 8#5 ∧ Reg.s 2 = 18#5 ∧ Reg.s 11 = 27#5 ∧ Reg.a 7 = 17#5 ∧
    Reg.fp = Reg.s 0 := by decide

/-- R92: constants with bit 11 clear, with bit 11 set, small, and with zero low bits. -/
theorem test_li_expansions :
    asmLi 5#5 0x12345678#32 = [.lui 5#5 0x12345#20, .addi 5#5 5#5 0x678#12] ∧
    asmLi 5#5 0x89ABCDEF#32 = [.lui 5#5 0x89ABD#20, .addi 5#5 5#5 0xDEF#12] ∧
    asmLi 5#5 0xFFFFFFFF#32 = [.addi 5#5 0#5 0xFFF#12] ∧ asmLi 5#5 0x00100000#32 = [.lui 5#5 0x00100#20] := by decide

/-! ## One step of each instruction, from 95_test_vectors.md; the load and store rows run at pc 0x200, off their data -/

/-- TA1 -/
theorem test_add_wraps :
    runs 0x007302B3 (atPc 0x100#32 [(6, 0x7FFFFFFF#32), (7, 0x001#32)] [])
      fun t => t.pc = 0x104#32 ∧ t.readReg 5#5 = 0x80000000#32 := by decide

/-- TA3 -/
theorem test_add_to_register_zero :
    runs 0x00730033 (atPc 0x100#32 [(6, 0x003#32), (7, 0x004#32)] [])
      fun t => t.pc = 0x104#32 ∧ t.readReg 0#5 = 0#32 := by decide

/-- TA6 -/
theorem test_sub_borrows :
    runs 0x407302B3 (atPc 0x100#32 [(6, 0x000#32), (7, 0x001#32)] [])
      fun t => t.pc = 0x104#32 ∧ t.readReg 5#5 = 0xFFFFFFFF#32 := by decide

/-- TA7 -/
theorem test_sub_crosses_the_sign :
    runs 0x407302B3 (atPc 0x100#32 [(6, 0x80000000#32), (7, 0x001#32)] [])
      fun t => t.pc = 0x104#32 ∧ t.readReg 5#5 = 0x7FFFFFFF#32 := by decide

/-- TA10 -/
theorem test_sll_by_32_is_by_0 :
    runs 0x007312B3 (atPc 0x100#32 [(6, 0x12345678#32), (7, 0x020#32)] [])
      fun t => t.pc = 0x104#32 ∧ t.readReg 5#5 = 0x12345678#32 := by decide

/-- TA11 -/
theorem test_sll_takes_the_low_five_bits :
    runs 0x007312B3 (atPc 0x100#32 [(6, 0x001#32), (7, 0xFFFFFFFF#32)] [])
      fun t => t.pc = 0x104#32 ∧ t.readReg 5#5 = 0x80000000#32 := by decide

/-- TA13 -/
theorem test_slt_is_signed :
    runs 0x007322B3 (atPc 0x100#32 [(6, 0xFFFFFFFF#32), (7, 0x001#32)] [])
      fun t => t.pc = 0x104#32 ∧ t.readReg 5#5 = 0x001#32 := by decide

/-- TA17 -/
theorem test_slt_of_equals_is_zero :
    runs 0x007322B3 (atPc 0x100#32 [(6, 0x005#32), (7, 0x005#32), (5, 0x009#32)] [])
      fun t => t.pc = 0x104#32 ∧ t.readReg 5#5 = 0x000#32 := by decide

/-- TA14 -/
theorem test_sltu_is_unsigned :
    runs 0x007332B3 (atPc 0x100#32 [(6, 0xFFFFFFFF#32), (7, 0x001#32), (5, 0x009#32)] [])
      fun t => t.pc = 0x104#32 ∧ t.readReg 5#5 = 0x000#32 := by decide

/-- TA16 -/
theorem test_sltu_of_the_sign_bit :
    runs 0x007332B3 (atPc 0x100#32 [(6, 0x7FFFFFFF#32), (7, 0x80000000#32)] [])
      fun t => t.pc = 0x104#32 ∧ t.readReg 5#5 = 0x001#32 := by decide

/-- TA19 -/
theorem test_xor_bits :
    runs 0x007342B3 (atPc 0x100#32 [(6, 0xFF00FF00#32), (7, 0x0FF00FF0#32)] [])
      fun t => t.pc = 0x104#32 ∧ t.readReg 5#5 = 0xF0F0F0F0#32 := by decide

/-- TA20 -/
theorem test_or_bits :
    runs 0x007362B3 (atPc 0x100#32 [(6, 0xFF00FF00#32), (7, 0x0FF00FF0#32)] [])
      fun t => t.pc = 0x104#32 ∧ t.readReg 5#5 = 0xFFF0FFF0#32 := by decide

/-- TA21 -/
theorem test_and_bits :
    runs 0x007372B3 (atPc 0x100#32 [(6, 0xFF00FF00#32), (7, 0x0FF00FF0#32)] [])
      fun t => t.pc = 0x104#32 ∧ t.readReg 5#5 = 0x0F000F00#32 := by decide

/-- TA22 -/
theorem test_srl_brings_in_zeros :
    runs 0x007352B3 (atPc 0x100#32 [(6, 0x80000000#32), (7, 0x01F#32)] [])
      fun t => t.pc = 0x104#32 ∧ t.readReg 5#5 = 0x001#32 := by decide

/-- TA27 -/
theorem test_srl_takes_the_low_five_bits :
    runs 0x007352B3 (atPc 0x100#32 [(6, 0xF0000000#32), (7, 0x024#32)] [])
      fun t => t.pc = 0x104#32 ∧ t.readReg 5#5 = 0x0F000000#32 := by decide

/-- TA23 -/
theorem test_sra_brings_in_the_sign :
    runs 0x407352B3 (atPc 0x100#32 [(6, 0x80000000#32), (7, 0x01F#32)] [])
      fun t => t.pc = 0x104#32 ∧ t.readReg 5#5 = 0xFFFFFFFF#32 := by decide

/-- TA26 -/
theorem test_sra_of_a_positive :
    runs 0x407352B3 (atPc 0x100#32 [(6, 0x7FFFFFFF#32), (7, 0x03F#32)] [])
      fun t => t.pc = 0x104#32 ∧ t.readReg 5#5 = 0x000#32 := by decide

/-- TA29 -/
theorem test_mul_of_minus_ones :
    runs 0x027302B3 (atPc 0x100#32 [(6, 0xFFFFFFFF#32), (7, 0xFFFFFFFF#32)] [])
      fun t => t.pc = 0x104#32 ∧ t.readReg 5#5 = 0x001#32 := by decide

/-- TA30 -/
theorem test_mul_loses_the_high_word :
    runs 0x027302B3 (atPc 0x100#32 [(6, 0x80000000#32), (7, 0x7FFFFFFF#32)] [])
      fun t => t.pc = 0x104#32 ∧ t.readReg 5#5 = 0x80000000#32 := by decide

/-- TA33 -/
theorem test_mulh_of_a_negative :
    runs 0x027312B3 (atPc 0x100#32 [(6, 0x80000000#32), (7, 0x001#32)] [])
      fun t => t.pc = 0x104#32 ∧ t.readReg 5#5 = 0xFFFFFFFF#32 := by decide

/-- TA35 -/
theorem test_mulh_mixed_signs :
    runs 0x027312B3 (atPc 0x100#32 [(6, 0x12345678#32), (7, 0x9ABCDEF0#32)] [])
      fun t => t.pc = 0x104#32 ∧ t.readReg 5#5 = 0xF8CC93D6#32 := by decide

/-- TA37 -/
theorem test_div_rounds_toward_zero :
    runs 0x027342B3 (atPc 0x100#32 [(6, 0xFFFFFFF9#32), (7, 0x002#32)] [])
      fun t => t.pc = 0x104#32 ∧ t.readReg 5#5 = 0xFFFFFFFD#32 := by decide

/-- TA40 -/
theorem test_div_by_zero :
    runs 0x027342B3 (atPc 0x100#32 [(6, 0x00001234#32), (7, 0x000#32)] [])
      fun t => t.pc = 0x104#32 ∧ t.readReg 5#5 = 0xFFFFFFFF#32 := by decide

/-- TA43 -/
theorem test_rem_has_the_sign_of_the_dividend :
    runs 0x027362B3 (atPc 0x100#32 [(6, 0xFFFFFFF9#32), (7, 0x002#32)] [])
      fun t => t.pc = 0x104#32 ∧ t.readReg 5#5 = 0xFFFFFFFF#32 := by decide

/-- TA46 -/
theorem test_rem_overflow_corner :
    runs 0x027362B3 (atPc 0x100#32 [(6, 0x80000000#32), (7, 0xFFFFFFFF#32), (5, 0x007#32)] [])
      fun t => t.pc = 0x104#32 ∧ t.readReg 5#5 = 0x000#32 := by decide

/-- TB1 -/
theorem test_addi_minus_one :
    runs 0xFFF30293 (atPc 0x100#32 [(6, 0x000#32)] [])
      fun t => t.pc = 0x104#32 ∧ t.readReg 5#5 = 0xFFFFFFFF#32 := by decide

/-- TB3 -/
theorem test_addi_least_immediate :
    runs 0x80030293 (atPc 0x100#32 [(6, 0x800#32)] [])
      fun t => t.pc = 0x104#32 ∧ t.readReg 5#5 = 0x000#32 := by decide

/-- TB6 -/
theorem test_slti_is_signed :
    runs 0xFFF32293 (atPc 0x100#32 [(6, 0xFFFFFFFE#32)] [])
      fun t => t.pc = 0x104#32 ∧ t.readReg 5#5 = 0x001#32 := by decide

/-- TB7 -/
theorem test_slti_not_less :
    runs 0xFFF32293 (atPc 0x100#32 [(6, 0x000#32), (5, 0x009#32)] [])
      fun t => t.pc = 0x104#32 ∧ t.readReg 5#5 = 0x000#32 := by decide

/-- TB9 -/
theorem test_sltiu_extends_then_reads_unsigned :
    runs 0xFFF33293 (atPc 0x100#32 [(6, 0xFFFFFFFE#32)] [])
      fun t => t.pc = 0x104#32 ∧ t.readReg 5#5 = 0x001#32 := by decide

/-- TB10 -/
theorem test_sltiu_equal_is_zero :
    runs 0xFFF33293 (atPc 0x100#32 [(6, 0xFFFFFFFF#32), (5, 0x009#32)] [])
      fun t => t.pc = 0x104#32 ∧ t.readReg 5#5 = 0x000#32 := by decide

/-- TB13 -/
theorem test_xori_is_not :
    runs 0xFFF34293 (atPc 0x100#32 [(6, 0x0F0F0F0F#32)] [])
      fun t => t.pc = 0x104#32 ∧ t.readReg 5#5 = 0xF0F0F0F0#32 := by decide

/-- TB14 -/
theorem test_xori_positive_immediate :
    runs 0x55534293 (atPc 0x100#32 [(6, 0xFFFFFFFF#32)] [])
      fun t => t.pc = 0x104#32 ∧ t.readReg 5#5 = 0xFFFFFAAA#32 := by decide

/-- TB15 -/
theorem test_ori_least_immediate :
    runs 0x80036293 (atPc 0x100#32 [(6, 0x001#32)] [])
      fun t => t.pc = 0x104#32 ∧ t.readReg 5#5 = 0xFFFFF801#32 := by decide

/-- TB16 -/
theorem test_ori_positive_immediate :
    runs 0x0F036293 (atPc 0x100#32 [(6, 0x0000F00F#32)] [])
      fun t => t.pc = 0x104#32 ∧ t.readReg 5#5 = 0x0000F0FF#32 := by decide

/-- TB17 -/
theorem test_andi_mask :
    runs 0x0FF37293 (atPc 0x100#32 [(6, 0x12345678#32)] [])
      fun t => t.pc = 0x104#32 ∧ t.readReg 5#5 = 0x078#32 := by decide

/-- TB18 -/
theorem test_andi_negative_immediate :
    runs 0xFF037293 (atPc 0x100#32 [(6, 0x12345678#32)] [])
      fun t => t.pc = 0x104#32 ∧ t.readReg 5#5 = 0x12345670#32 := by decide

/-- TB19 -/
theorem test_slli_31 :
    runs 0x01F31293 (atPc 0x100#32 [(6, 0x001#32)] [])
      fun t => t.pc = 0x104#32 ∧ t.readReg 5#5 = 0x80000000#32 := by decide

/-- TB21 -/
theorem test_slli_4 :
    runs 0x00431293 (atPc 0x100#32 [(6, 0x89ABCDEF#32)] [])
      fun t => t.pc = 0x104#32 ∧ t.readReg 5#5 = 0x9ABCDEF0#32 := by decide

/-- TB22 -/
theorem test_srli_31 :
    runs 0x01F35293 (atPc 0x100#32 [(6, 0x80000000#32)] [])
      fun t => t.pc = 0x104#32 ∧ t.readReg 5#5 = 0x001#32 := by decide

/-- TB24 -/
theorem test_srli_4 :
    runs 0x00435293 (atPc 0x100#32 [(6, 0xF0000000#32)] [])
      fun t => t.pc = 0x104#32 ∧ t.readReg 5#5 = 0x0F000000#32 := by decide

/-- TB23 -/
theorem test_srai_31 :
    runs 0x41F35293 (atPc 0x100#32 [(6, 0x80000000#32)] [])
      fun t => t.pc = 0x104#32 ∧ t.readReg 5#5 = 0xFFFFFFFF#32 := by decide

/-- TB25 -/
theorem test_srai_4 :
    runs 0x40435293 (atPc 0x100#32 [(6, 0xF0000000#32)] [])
      fun t => t.pc = 0x104#32 ∧ t.readReg 5#5 = 0xFF000000#32 := by decide

/-- TC1 -/
theorem test_lb_extends_the_sign :
    runs 0x00030283 (atPc 0x200#32 [(6, 0x100#32)] bytesEFCDAB89)
      fun t => t.pc = 0x204#32 ∧ t.readReg 5#5 = 0xFFFFFFEF#32 := by decide

/-- TC19 -/
theorem test_lb_at_an_odd_address :
    runs 0x00330283 (atPc 0x200#32 [(6, 0x100#32)] bytesEFCDAB89)
      fun t => t.pc = 0x204#32 ∧ t.readReg 5#5 = 0xFFFFFF89#32 := by decide

/-- TC4 -/
theorem test_lh_extends_the_sign :
    runs 0x00231283 (atPc 0x200#32 [(6, 0x100#32)] bytesEFCDAB89)
      fun t => t.pc = 0x204#32 ∧ t.readReg 5#5 = 0xFFFF89AB#32 := by decide

/-- TC17 -/
theorem test_lh_misaligned :
    runs 0x00131283 (atPc 0x200#32 [(6, 0x100#32)] bytesEFCDAB89)
      fun t => Faulted t .invalidRead 0x101#32 ∧ t.pc = 0x200#32 := by decide

/-- TC9 -/
theorem test_lw_over_its_own_base :
    runs 0x00032303 (atPc 0x200#32 [(6, 0x100#32)] bytesEFCDAB89)
      fun t => t.pc = 0x204#32 ∧ t.readReg 6#5 = 0x89ABCDEF#32 := by decide

/-- TC20 -/
theorem test_lw_address_wraps :
    runs 0xFFC02283 (atPc 0x200#32 [] [])
      fun t => Faulted t .invalidRead 0xFFFFFFFC#32 ∧ t.pc = 0x200#32 := by decide

/-- TC11 -/
theorem test_lbu_last_byte :
    runs 0x00034283 (atPc 0x200#32 [(6, 0x000FFFFF#32)] [(0xfffff, 0x5A#8)])
      fun t => t.pc = 0x204#32 ∧ t.readReg 5#5 = 0x05A#32 := by decide

/-- TC12 -/
theorem test_lbu_one_past_the_bound :
    runs 0x00134283 (atPc 0x200#32 [(6, 0x000FFFFF#32)] [])
      fun t => Faulted t .invalidRead 0x00100000#32 ∧ t.pc = 0x200#32 := by decide

/-- TC5 -/
theorem test_lhu_extends_with_zeros :
    runs 0x00235283 (atPc 0x200#32 [(6, 0x100#32)] bytesEFCDAB89)
      fun t => t.pc = 0x204#32 ∧ t.readReg 5#5 = 0x000089AB#32 := by decide

/-- TC18 -/
theorem test_lhu_misaligned :
    runs 0x00335283 (atPc 0x200#32 [(6, 0x100#32)] bytesEFCDAB89)
      fun t => Faulted t .invalidRead 0x103#32 ∧ t.pc = 0x200#32 := by decide

/-- TD1 -/
theorem test_sb_stores_one_byte :
    runs 0x007300A3 (atPc 0x200#32 [(6, 0x100#32), (7, 0x123456FF#32)] bytes11223344)
      fun t => t.pc = 0x204#32 ∧ readBytes t.mem 0x100 4 = [0x11#8, 0xFF#8, 0x33#8, 0x44#8] := by decide

/-- TD11 -/
theorem test_sb_one_past_the_bound :
    runs 0x00730023 (atPc 0x200#32 [(6, 0x00100000#32), (7, 0x05A#32)] [])
      fun t => Faulted t .invalidWrite 0x00100000#32 ∧ t.pc = 0x200#32 := by decide

/-- TD2 -/
theorem test_sh_stores_low_byte_first :
    runs 0x00731123 (atPc 0x200#32 [(6, 0x100#32), (7, 0x1234ABCD#32)] bytes11223344)
      fun t => t.pc = 0x204#32 ∧ readBytes t.mem 0x100 4 = [0x11#8, 0x22#8, 0xCD#8, 0xAB#8] := by decide

/-- TD8 -/
theorem test_sh_misaligned :
    runs 0x007310A3 (atPc 0x200#32 [(6, 0x100#32), (7, 0x0000ABCD#32)] bytes11223344)
      fun t => Faulted t .invalidWrite 0x101#32 ∧ t.pc = 0x200#32 ∧ t.readMem 0x101 = 0x22#8 := by decide

/-- TD4 -/
theorem test_sw_negative_displacement :
    runs 0xFE732E23 (atPc 0x200#32 [(6, 0x104#32), (7, 0xCAFEBABE#32)] bytes11223344)
      fun t => t.pc = 0x204#32 ∧ readBytes t.mem 0x100 4 = [0xBE#8, 0xBA#8, 0xFE#8, 0xCA#8] := by decide

/-- TD14 -/
theorem test_sw_address_wraps :
    runs 0xFE702E23 (atPc 0x200#32 [(7, 0x001#32)] [])
      fun t => Faulted t .invalidWrite 0xFFFFFFFC#32 ∧ t.pc = 0x200#32 := by decide

/-- TE1 -/
theorem test_beq_taken :
    runs 0x00730863 (atPc 0x100#32 [(6, 0x005#32), (7, 0x005#32)] [])
      fun t => t.pc = 0x110#32 := by decide

/-- TE14 -/
theorem test_beq_taken_misaligned :
    runs 0x00000163 (atPc 0x100#32 [] [])
      fun t => Faulted t .misalignedTarget 0x102#32 ∧ t.pc = 0x100#32 := by decide

/-- TE5 -/
theorem test_bne_backward :
    runs 0xFE029CE3 (atPc 0x010#32 [(5, 0x001#32)] [])
      fun t => t.pc = 0x008#32 := by decide

/-- TE16 -/
theorem test_bne_not_taken_misaligned_offset :
    runs 0x00001163 (atPc 0x100#32 [] [])
      fun t => t.pc = 0x104#32 := by decide

/-- TE6 -/
theorem test_blt_is_signed :
    runs 0x00734863 (atPc 0x100#32 [(6, 0xFFFFFFFF#32), (7, 0x001#32)] [])
      fun t => t.pc = 0x110#32 := by decide

/-- TE8 -/
theorem test_blt_equal_not_taken :
    runs 0x00734863 (atPc 0x100#32 [(6, 0x005#32), (7, 0x005#32)] [])
      fun t => t.pc = 0x104#32 := by decide

/-- TE9 -/
theorem test_bge_equal_taken :
    runs 0x00735863 (atPc 0x100#32 [(6, 0x005#32), (7, 0x005#32)] [])
      fun t => t.pc = 0x110#32 := by decide

/-- TE10 -/
theorem test_bge_is_signed :
    runs 0x00735863 (atPc 0x100#32 [(6, 0x80000000#32), (7, 0x000#32)] [])
      fun t => t.pc = 0x104#32 := by decide

/-- TE7 -/
theorem test_bltu_is_unsigned :
    runs 0x00736863 (atPc 0x100#32 [(6, 0xFFFFFFFF#32), (7, 0x001#32)] [])
      fun t => t.pc = 0x104#32 := by decide

/-- TE13 -/
theorem test_bltu_taken :
    runs 0x00736863 (atPc 0x100#32 [(6, 0x000#32), (7, 0xFFFFFFFF#32)] [])
      fun t => t.pc = 0x110#32 := by decide

/-- TE11 -/
theorem test_bgeu_is_unsigned :
    runs 0x00737863 (atPc 0x100#32 [(6, 0x80000000#32), (7, 0x000#32)] [])
      fun t => t.pc = 0x110#32 := by decide

/-- TE12 -/
theorem test_bgeu_not_taken :
    runs 0x00737863 (atPc 0x100#32 [(6, 0x000#32), (7, 0xFFFFFFFF#32)] [])
      fun t => t.pc = 0x104#32 := by decide

/-- TF3 -/
theorem test_jal_backward :
    runs 0xFFDFF0EF (atPc 0x100#32 [] [])
      fun t => t.pc = 0x0FC#32 ∧ t.readReg 1#5 = 0x104#32 := by decide

/-- TF5 -/
theorem test_jal_misaligned_keeps_the_link_register :
    runs 0x002000EF (atPc 0x100#32 [(1, 0x077#32)] [])
      fun t => Faulted t .misalignedTarget 0x102#32 ∧ t.pc = 0x100#32 ∧ t.readReg 1#5 = 0x077#32 := by decide

/-- TF11 -/
theorem test_jalr_over_its_own_base :
    runs 0xFFC282E7 (atPc 0x100#32 [(5, 0x204#32)] [])
      fun t => t.pc = 0x200#32 ∧ t.readReg 5#5 = 0x104#32 := by decide

/-- TF12 -/
theorem test_jalr_keeps_bit_zero :
    runs 0x001300E7 (atPc 0x100#32 [(6, 0x200#32), (1, 0x077#32)] [])
      fun t => Faulted t .misalignedTarget 0x201#32 ∧ t.pc = 0x100#32 := by decide

/-- TF17 -/
theorem test_lui_upper_bits :
    runs 0x89ABD2B7 (atPc 0x100#32 [] [])
      fun t => t.pc = 0x104#32 ∧ t.readReg 5#5 = 0x89ABD000#32 := by decide

/-- TF20 -/
theorem test_lui_to_register_zero :
    runs 0x12345037 (atPc 0x100#32 [] [])
      fun t => t.pc = 0x104#32 ∧ t.readReg 0#5 = 0#32 := by decide

/-- TF22 -/
theorem test_auipc_subtracts :
    runs 0xFFFFF297 (atPc 0x100#32 [] [])
      fun t => t.pc = 0x104#32 ∧ t.readReg 5#5 = 0xFFFFF100#32 := by decide

/-- TF23 -/
theorem test_auipc_reads_the_pc :
    runs 0x00000297 (atPc 0x100#32 [] [])
      fun t => t.pc = 0x104#32 ∧ t.readReg 5#5 = 0x100#32 := by decide

/-- TG3 -/
theorem test_ecall_prints_the_least_integer :
    runs 0x00000073 (atPc 0x100#32 [(10, 0x001#32), (11, 0x80000000#32)] [])
      fun t => t.pc = 0x104#32 ∧ t.out = [0x2D#8, 0x32#8, 0x31#8, 0x34#8, 0x37#8, 0x34#8, 0x38#8, 0x33#8, 0x36#8, 0x34#8, 0x38#8] := by decide

/-- TG7 -/
theorem test_ecall_string_stops_at_the_bound :
    runs 0x00000073 (atPc 0x100#32 [(10, 0x004#32), (11, 0x000FFFFE#32)] [(0xffffe, 0x41#8), (0xfffff, 0x42#8)])
      fun t => t.pc = 0x104#32 ∧ t.out = [0x41#8, 0x42#8] := by decide

/-! ## Witnesses: the hypotheses of each obligation, met together -/

/-- The least and greatest offsets a branch and a jump can hold (DecodeOfEncode, DecodeOfEncodedBytes). -/
theorem witness_well_formed :
    Instr.wf (.beq 31#5 1#5 0x1000#13) = true ∧ Instr.wf (.bgeu 0#5 31#5 0xFFE#13) = true ∧
    Instr.wf (.jal 31#5 0x100000#21) = true ∧ Instr.wf (.jal 0#5 0xFFFFE#21) = true ∧
    Instr.wf (.sw 1#5 2#5 0x800#12) = true ∧ Instr.wf .ecall = true := by decide

theorem witness_DecodedInstructionsAreWellFormed : decode 0xFE029CE3#32 = .ok (.bne 5#5 0#5 (-8#13)) := by decide

/-- One word for each clause of EncodeOfDecode: JALR with funct3 `001`, the EBREAK word, an ADD. -/
theorem witness_EncodeOfDecode :
    (decode 0x00009067#32 = .ok (.jalr 0#5 1#5 0#12) ∧ opcodeOf 0x00009067#32 = 0b1100111#7) ∧
    (decode 0x00100073#32 = .ok .ecall ∧ opcodeOf 0x00100073#32 = 0b1110011#7) ∧
    (decode 0x007302B3#32 = .ok (.add 5#5 6#5 7#5) ∧ opcodeOf 0x007302B3#32 ≠ 0b1100111#7 ∧
      opcodeOf 0x007302B3#32 ≠ 0b1110011#7) := by decide

/-- Both sides of DecodableExactlyWhenATableRowMatches, and a word on neither. -/
theorem witness_DecodableExactlyWhenATableRowMatches :
    decode 0x41F35293#32 = .ok (.srai 5#5 6#5 31#5) ∧ (∃ row ∈ tableRows, row.Matches 0x41F35293#32) ∧
    decode 0x027322B3#32 = .error .unrecognisedOperation ∧ ¬∃ row ∈ tableRows, row.Matches 0x027322B3#32 := by decide

/-- A word of each format with an immediate. -/
theorem witness_RecordHoldsTheFinishedImmediate :
    (decode 0xFFC32283#32 = .ok (.lw 5#5 6#5 (-4#12)) ∧
      finishedImmediate (.lw 5#5 6#5 (-4#12)) = some 0xFFFFFFFC#32) ∧
    (decode 0xFE732E23#32 = .ok (.sw 6#5 7#5 (-4#12)) ∧
      finishedImmediate (.sw 6#5 7#5 (-4#12)) = some 0xFFFFFFFC#32) ∧
    (decode 0xFE029CE3#32 = .ok (.bne 5#5 0#5 (-8#13)) ∧
      finishedImmediate (.bne 5#5 0#5 (-8#13)) = some 0xFFFFFFF8#32) ∧
    (decode 0x800000EF#32 = .ok (.jal 1#5 0x100000#21) ∧
      finishedImmediate (.jal 1#5 0x100000#21) = some 0xFFF00000#32) ∧
    (decode 0x89ABD2B7#32 = .ok (.lui 5#5 0x89ABD#20) ∧
      finishedImmediate (.lui 5#5 0x89ABD#20) = some 0x89ABD000#32) := by decide

/-- At the last word of memory. -/
theorem witness_StepRunsTheDecodedInstruction :
    (holding 0x007302B3 0x000FFFFC#32 [] []).status = .running ∧
    FetchedWord (holding 0x007302B3 0x000FFFFC#32 [] []) 0x007302B3#32 ∧
    decode 0x007302B3#32 = .ok (.add 5#5 6#5 7#5) := by unfold FetchedWord; decide

/-- The first aligned pc past memory, the last one of all, and the first pc whose word runs past the bound. -/
theorem witness_FetchOutsideMemoryFaults :
    ((atPc 0x00100000#32 [] []).status = .running ∧ 0x00100000 < (0x00100000#32 : Word).toNat + 4) ∧
    ((atPc 0xFFFFFFFC#32 [] []).status = .running ∧ 0x00100000 < (0xFFFFFFFC#32 : Word).toNat + 4) ∧
    ((atPc 0x000FFFFD#32 [] []).status = .running ∧ 0x00100000 < (0x000FFFFD#32 : Word).toNat + 4) := by decide

theorem witness_PlacedInstructionRunsNext :
    (atPc 0x000FFFFC#32 [] bytesEFCDAB89).status = .running ∧ Memory.wf (atPc 0x000FFFFC#32 [] bytesEFCDAB89).mem ∧
    (0x000FFFFC#32 : Word).toNat + 4 ≤ (atPc 0x000FFFFC#32 [] bytesEFCDAB89).cfg.memSize ∧
    Instr.wf (.jal 1#5 0x20#21) = true := by decide

theorem witness_StepExistsExactlyWhenRunning :
    State.reset.status = .running ∧ State.reset.haltExit.status = .exited ∧
    (State.reset.raise ⟨.invalidRead, 2#32⟩).status = .faulted := by decide

/-- The opcode clause: the FENCE word and the word zero. -/
theorem witness_UnrecognisedEncodingsFault_opcode :
    (∀ w ∈ [0x0FF0000F#32, 0x00000000#32], opcodeOf w ∉ [0b0110011#7, 0b0000011#7, 0b0010011#7, 0b1100111#7,
      0b1110011#7, 0b0100011#7, 0b1100011#7, 0b1101111#7, 0b0110111#7, 0b0010111#7]) ∧
    FetchedWord (holding 0x0FF0000F 0x100#32 [] []) 0x0FF0000F#32 ∧
    FetchedWord (holding 0x00000000 0x100#32 [] []) 0x00000000#32 ∧
    (holding 0x0FF0000F 0x100#32 [] []).status = .running := by
  refine ⟨by simp [opcodeOf], ?_, ?_, by decide⟩ <;> unfold FetchedWord <;> decide

/-- The selector clause of OP: a MULHSU word. -/
theorem witness_UnrecognisedEncodingsFault_selector :
    FetchedWord (holding 0x027322B3 0x100#32 [] []) 0x027322B3#32 ∧
    (holding 0x027322B3 0x100#32 [] []).status = .running ∧ opcodeOf 0x027322B3#32 = 0b0110011#7 ∧
    (funct7Of 0x027322B3#32, funct3Of 0x027322B3#32) ∉
      [(0b0000000#7, 0b000#3), (0b0100000#7, 0b000#3), (0b0000000#7, 0b001#3), (0b0000000#7, 0b010#3),
       (0b0000000#7, 0b011#3), (0b0000000#7, 0b100#3), (0b0000000#7, 0b101#3), (0b0100000#7, 0b101#3),
       (0b0000000#7, 0b110#3), (0b0000000#7, 0b111#3), (0b0000001#7, 0b000#3), (0b0000001#7, 0b001#3),
       (0b0000001#7, 0b100#3), (0b0000001#7, 0b110#3)] := by
  refine ⟨?_, by decide, by decide, by simp [funct7Of, funct3Of]⟩
  unfold FetchedWord; decide

/-- The branch clause: both reserved selectors. -/
theorem witness_UnrecognisedEncodingsFault_branch :
    FetchedWord (holding 0x00732863 0x100#32 [] []) 0x00732863#32 ∧
    FetchedWord (holding 0x00733863 0x100#32 [] []) 0x00733863#32 ∧
    (holding 0x00733863 0x100#32 [] []).status = .running ∧
    opcodeOf 0x00732863#32 = 0b1100011#7 ∧ funct3Of 0x00732863#32 = 0b010#3 ∧
    opcodeOf 0x00733863#32 = 0b1100011#7 ∧ funct3Of 0x00733863#32 = 0b011#3 := by unfold FetchedWord; decide

/-- A word for each clause: SLLI and SRLI with a reserved shift type, a LOAD and a STORE selector at each end. -/
theorem witness_ReservedSelectorsFault :
    (FetchedWord (holding 0x40031293 0x100#32 [] []) 0x40031293#32 ∧ opcodeOf 0x40031293#32 = 0b0010011#7 ∧
      funct3Of 0x40031293#32 = 0b001#3 ∧ funct7Of 0x40031293#32 ≠ 0b0000000#7) ∧
    (FetchedWord (holding 0x02035293 0x100#32 [] []) 0x02035293#32 ∧ opcodeOf 0x02035293#32 = 0b0010011#7 ∧
      funct3Of 0x02035293#32 = 0b101#3 ∧ funct7Of 0x02035293#32 ∉ [0b0000000#7, 0b0100000#7]) ∧
    (FetchedWord (holding 0x00833283 0x100#32 [] []) 0x00833283#32 ∧ opcodeOf 0x00833283#32 = 0b0000011#7 ∧
      funct3Of 0x00833283#32 = 0b011#3) ∧
    (FetchedWord (holding 0x00837283 0x100#32 [] []) 0x00837283#32 ∧ opcodeOf 0x00837283#32 = 0b0000011#7 ∧
      funct3Of 0x00837283#32 = 0b111#3) ∧
    (FetchedWord (holding 0x00733423 0x100#32 [] []) 0x00733423#32 ∧ opcodeOf 0x00733423#32 = 0b0100011#7 ∧
      funct3Of 0x00733423#32 = 0b011#3) ∧
    (FetchedWord (holding 0x00737423 0x100#32 [] []) 0x00737423#32 ∧ opcodeOf 0x00737423#32 = 0b0100011#7 ∧
      funct3Of 0x00737423#32 = 0b111#3) ∧
    (holding 0x00737423 0x100#32 [] []).status = .running := by unfold FetchedWord; decide

/-- Valid at the last byte, half-word and word and when alignment is not asked; invalid past the bound and misaligned. -/
theorem witness_LoadAndStorePrimitives :
    validAccess 0x00100000 0x000FFFFF#32 1 true = true ∧ validAccess 0x00100000 0x000FFFFE#32 2 true = true ∧
    validAccess 0x00100000 0x000FFFFC#32 4 true = true ∧ validAccess 0x00100000 0x101#32 4 false = true ∧
    validAccess 0x00100000 0x00100000#32 1 true = false ∧ validAccess 0x00100000 0x000FFFFD#32 4 false = false ∧
    validAccess 0x00100000 0x101#32 2 true = false ∧ Memory.wf (atPc 0#32 [] bytesEFCDAB89).mem := by decide

theorem witness_NarrowReadsOfAStoredWord :
    State.reset.cfg.wf ∧ Memory.wf State.reset.mem ∧
    ∃ t, State.memWrite State.reset 0x000FFFFC#32 .word 0xAABBCCDD#32 true = .ok t :=
  ⟨by decide, by decide, _, rfl⟩

theorem witness_AlignedAccessesNeverStraddleTheBound :
    State.reset.cfg.wf ∧ State.reset.cfg.enforceAlign = true ∧ AccessOk State.reset 0x000FFFFC#32 4 ∧
    ¬AccessOk State.reset 0x00100000#32 4 ∧ ¬AccessOk State.reset 0x102#32 4 := by unfold AccessOk; decide

/-- The decoding hypotheses of AddAndSubtract, SetLessThan, BitwiseOperations and MultiplyLowWord. -/
theorem witness_op_words :
    [0x007302B3#32, 0x407302B3#32, 0x027302B3#32].map (fun w => (opcodeOf w, funct7Of w, funct3Of w)) =
      [(0b0110011#7, 0b0000000#7, 0b000#3), (0b0110011#7, 0b0100000#7, 0b000#3), (0b0110011#7, 0b0000001#7, 0b000#3)] ∧
    [0x007322B3#32, 0x007332B3#32].map (fun w => (opcodeOf w, funct7Of w, funct3Of w)) =
      [(0b0110011#7, 0b0000000#7, 0b010#3), (0b0110011#7, 0b0000000#7, 0b011#3)] ∧
    [0x007342B3#32, 0x007362B3#32, 0x007372B3#32].map (fun w => (opcodeOf w, funct7Of w, funct3Of w)) =
      [(0b0110011#7, 0b0000000#7, 0b100#3), (0b0110011#7, 0b0000000#7, 0b110#3),
       (0b0110011#7, 0b0000000#7, 0b111#3)] := by decide

/-- The decoding hypotheses of ImmediateAddAndCompare, ImmediateBitwise and ImmediateShifts. -/
theorem witness_opImm_words :
    [0xFFF30293#32, 0xFFF32293#32, 0xFFF33293#32].map (fun w => (opcodeOf w, funct3Of w)) =
      [(0b0010011#7, 0b000#3), (0b0010011#7, 0b010#3), (0b0010011#7, 0b011#3)] ∧
    [0xFFF34293#32, 0x0F036293#32, 0x0FF37293#32].map (fun w => (opcodeOf w, funct3Of w)) =
      [(0b0010011#7, 0b100#3), (0b0010011#7, 0b110#3), (0b0010011#7, 0b111#3)] ∧
    [0x01F31293#32, 0x01F35293#32, 0x41F35293#32].map (fun w => (opcodeOf w, funct7Of w, funct3Of w)) =
      [(0b0010011#7, 0b0000000#7, 0b001#3), (0b0010011#7, 0b0000000#7, 0b101#3),
       (0b0010011#7, 0b0100000#7, 0b101#3)] := by decide

/-- TA19, TA20, TA21: the values that meet the three bit conditions of BitwiseOperations. -/
theorem witness_BitwiseOperations :
    let s := atPc 0x100#32 [(6, 0xFF00FF00#32), (7, 0x0FF00FF0#32)] []
    (∀ k, (0xF0F0F0F0#32 : Word).getLsbD k = ((s.readReg 6#5).getLsbD k != (s.readReg 7#5).getLsbD k)) ∧
    (∀ k, (0xFFF0FFF0#32 : Word).getLsbD k = ((s.readReg 6#5).getLsbD k || (s.readReg 7#5).getLsbD k)) ∧
    (∀ k, (0x0F000F00#32 : Word).getLsbD k = ((s.readReg 6#5).getLsbD k && (s.readReg 7#5).getLsbD k)) := by
  have h6 : (atPc 0x100#32 [(6, 0xFF00FF00#32), (7, 0x0FF00FF0#32)] []).readReg 6#5 = 0xFF00FF00#32 := by decide
  have h7 : (atPc 0x100#32 [(6, 0xFF00FF00#32), (7, 0x0FF00FF0#32)] []).readReg 7#5 = 0x0FF00FF0#32 := by decide
  simp only [h6, h7]
  exact ⟨fun k => BitVec.getLsbD_xor (x := 0xFF00FF00#32) (y := 0x0FF00FF0#32),
    fun k => BitVec.getLsbD_or (x := 0xFF00FF00#32) (y := 0x0FF00FF0#32),
    fun k => BitVec.getLsbD_and (x := 0xFF00FF00#32) (y := 0x0FF00FF0#32)⟩

/-- TB14, TB15, TB18: the values that meet the three bit conditions of ImmediateBitwise. -/
theorem witness_ImmediateBitwise :
    (∀ k, k < 32 → (0xFFFFFAAA#32 : Word).getLsbD k =
      (((atPc 0#32 [(6, 0xFFFFFFFF#32)] []).readReg 6#5).getLsbD k != (0x555#12 : BitVec 12).getLsbD (min k 11))) ∧
    (∀ k, k < 32 → (0xFFFFF801#32 : Word).getLsbD k =
      (((atPc 0#32 [(6, 1#32)] []).readReg 6#5).getLsbD k || (0x800#12 : BitVec 12).getLsbD (min k 11))) ∧
    (∀ k, k < 32 → (0x12345670#32 : Word).getLsbD k =
      (((atPc 0#32 [(6, 0x12345678#32)] []).readReg 6#5).getLsbD k && (0xFF0#12 : BitVec 12).getLsbD (min k 11))) := by
  have h1 : (atPc 0#32 [(6, 0xFFFFFFFF#32)] []).readReg 6#5 = 0xFFFFFFFF#32 := by decide
  have h2 : (atPc 0#32 [(6, 1#32)] []).readReg 6#5 = 1#32 := by decide
  have h3 : (atPc 0#32 [(6, 0x12345678#32)] []).readReg 6#5 = 0x12345678#32 := by decide
  simp only [h1, h2, h3]
  refine ⟨fun k hk => ?_, fun k hk => ?_, fun k hk => ?_⟩ <;> interval_cases k <;> rfl

/-- The corners of DivideAndRemainder and QuotientAndRemainderRecompose: a zero divisor, the overflow, an ordinary pair. -/
theorem witness_QuotientAndRemainderRecompose :
    s32 ((atPc 0#32 [] []).readReg 7#5) = 0 ∧
    (s32 ((atPc 0#32 [(6, 0x80000000#32), (7, 0xFFFFFFFF#32)] []).readReg 6#5) = -2147483648 ∧
      s32 ((atPc 0#32 [(6, 0x80000000#32), (7, 0xFFFFFFFF#32)] []).readReg 7#5) = -1) ∧
    (s32 ((atPc 0#32 [(6, 0xFFFFFFF9#32), (7, 2#32)] []).readReg 7#5) ≠ 0 ∧
      s32 ((atPc 0#32 [(6, 0xFFFFFFF9#32), (7, 2#32)] []).readReg 6#5) ≤ 0) ∧
    (s32 ((atPc 0#32 [(6, 7#32), (7, 2#32)] []).readReg 7#5) ≠ 0 ∧
      0 ≤ s32 ((atPc 0#32 [(6, 7#32), (7, 2#32)] []).readReg 6#5)) := by decide

/-- LoadByte and StoreByte: their words, the last byte of memory and the first address past it. -/
theorem witness_LoadByte_StoreByte :
    (opcodeOf 0x00830283#32 = 0b0000011#7 ∧ funct3Of 0x00830283#32 = 0b000#3) ∧
    (opcodeOf 0x00834283#32 = 0b0000011#7 ∧ funct3Of 0x00834283#32 = 0b100#3) ∧
    (opcodeOf 0x00730423#32 = 0b0100011#7 ∧ funct3Of 0x00730423#32 = 0b000#3) ∧
    (effAddr (atPc 0x100#32 [(6, 0x000FFFFF#32)] []) 6#5 0#12).toNat < (atPc 0#32 [] []).cfg.memSize ∧
    (atPc 0#32 [] []).cfg.memSize ≤ (effAddr (atPc 0x100#32 [(6, 0x000FFFFF#32)] []) 6#5 1#12).toNat ∧
    Memory.wf (atPc 0x100#32 [(6, 0x000FFFFF#32)] bytes11223344).mem := by decide

/-- LoadHalfAndWord and StoreHalfAndWord: accepted at the last half-word and word of memory, refused one past and
misaligned, accepted misaligned where alignment is not enforced. -/
theorem witness_LoadHalfAndWord_StoreHalfAndWord :
    AccessOk State.reset 0x000FFFFE#32 2 ∧ AccessOk State.reset 0x000FFFFC#32 4 ∧
    ¬AccessOk State.reset 0x00100000#32 2 ∧ ¬AccessOk State.reset 0x00100000#32 4 ∧
    ¬AccessOk State.reset 0x101#32 2 ∧ ¬AccessOk State.reset 0x102#32 4 ∧
    AccessOk (State.resetWith { Config.testVectors with enforceAlign := false }) 0x101#32 4 ∧
    effAddr (atPc 0x100#32 [(6, 0x00100000#32)] []) 6#5 (-4#12) = 0x000FFFFC#32 ∧
    Memory.wf State.reset.mem := by unfold AccessOk; decide

/-- At pc 0x100, `sw x7, 4(x6)` with x6 = 0x100 and x7 the word of `addi x5, x0, 7`. -/
theorem witness_StoredInstructionRunsNext :
    let s := atPc 0x100#32 [(6, 0x100#32), (7, 0x00700293#32)] []
    Memory.wf s.mem ∧ (∃ t, exec (.sw 6#5 7#5 4#12) s = .next t ∧ t.status = .running) ∧
    effAddr s 6#5 4#12 = s.pc + 4#32 ∧ decode (s.readReg 7#5) = .ok (.addi 5#5 0#5 7#12) :=
  ⟨by decide, exists_next (by decide), by decide, by decide⟩

/-- Words of the six branches. -/
theorem witness_branch_words :
    [0x00730863#32, 0x00731863#32, 0x00734863#32].map (fun w => (opcodeOf w, funct3Of w)) =
      [(0b1100011#7, 0b000#3), (0b1100011#7, 0b001#3), (0b1100011#7, 0b100#3)] ∧
    [0x00735863#32, 0x00736863#32, 0x00737863#32].map (fun w => (opcodeOf w, funct3Of w)) =
      [(0b1100011#7, 0b101#3), (0b1100011#7, 0b110#3), (0b1100011#7, 0b111#3)] := by decide

/-- Each condition met and not met, from an aligned pc, with an aligned and a misaligned target (TE16 to TE19). -/
theorem witness_Branches :
    let s := atPc 0x1000#32 [(6, 0xFFFFFFFF#32), (7, 1#32)] []
    s.pc.toNat % 4 = 0 ∧
    (u32 (s.pc.toNat + (0x1000#13).toInt)).toNat % 4 = 0 ∧ (u32 (s.pc.toNat + (2#13).toInt)).toNat % 4 ≠ 0 ∧
    (s.readReg 6#5 = s.readReg 6#5 ∧ s.readReg 6#5 ≠ s.readReg 7#5) ∧
    (s32 (s.readReg 6#5) < s32 (s.readReg 7#5) ∧ ¬s32 (s.readReg 7#5) < s32 (s.readReg 6#5)) ∧
    (s32 (s.readReg 7#5) ≥ s32 (s.readReg 6#5) ∧ ¬s32 (s.readReg 6#5) ≥ s32 (s.readReg 7#5)) ∧
    ((s.readReg 7#5).toNat < (s.readReg 6#5).toNat ∧ ¬(s.readReg 6#5).toNat < (s.readReg 7#5).toNat) ∧
    ((s.readReg 6#5).toNat ≥ (s.readReg 7#5).toNat ∧ ¬(s.readReg 7#5).toNat ≥ (s.readReg 6#5).toNat) := by decide

/-- JumpAndLink and JumpAndLinkRegister: their words, and targets that are and are not multiples of 4 (TF5, TF7, TF12,
TF14). -/
theorem witness_jumps :
    opcodeOf 0x020000EF#32 = 0b1101111#7 ∧ opcodeOf 0x00009067#32 = 0b1100111#7 ∧
    (u32 ((0x100#32 : Word).toNat + (0xFFFFC#21).toInt)).toNat % 4 = 0 ∧
    (u32 ((0x100#32 : Word).toNat + (2#21).toInt)).toNat % 4 ≠ 0 ∧
    (u32 (((atPc 0#32 [(6, 0x201#32)] []).readReg 6#5).toNat + (3#12).toInt)).toNat % 4 = 0 ∧
    (u32 (((atPc 0#32 [(6, 0x200#32)] []).readReg 6#5).toNat + (1#12).toInt)).toNat % 4 ≠ 0 := by decide

theorem witness_UpperImmediates :
    opcodeOf 0x89ABD2B7#32 = 0b0110111#7 ∧ opcodeOf 0x00001297#32 = 0b0010111#7 := by decide

/-- A state for each syscall number. -/
theorem witness_syscall_numbers :
    (atPc 0#32 [(10, 1#32)] []).readReg (atPc 0#32 [(10, 1#32)] []).cfg.syscallNumReg = 1#32 ∧
    (atPc 0#32 [(10, 4#32)] []).readReg (atPc 0#32 [(10, 4#32)] []).cfg.syscallNumReg = 4#32 ∧
    (atPc 0#32 [(10, 10#32)] []).readReg (atPc 0#32 [(10, 10#32)] []).cfg.syscallNumReg = 10#32 ∧
    (atPc 0#32 [(10, 11#32)] []).readReg (atPc 0#32 [(10, 11#32)] []).cfg.syscallNumReg = 11#32 := by decide

/-- The number 0, which the register holds after reset (TG14), and 0x10A, whose low byte is 10 (TG15). -/
theorem witness_UnknownSyscallFaults :
    State.reset.readReg State.reset.cfg.syscallNumReg ∉ [1#32, 4#32, 10#32, 11#32] ∧
    (atPc 0#32 [(10, 0x10A#32)] []).readReg (atPc 0#32 [(10, 0x10A#32)] []).cfg.syscallNumReg ∉
      [1#32, 4#32, 10#32, 11#32] := by decide

/-- The strings of PrintString: ended by a zero byte, by the bound, and empty past it (TG5, TG7, TG8). -/
theorem witness_PrintString :
    State.cString (atPc 0#32 [] [(0x40, 0x48#8), (0x41, 0x69#8), (0x42, 0x0A#8)]) 0x40#32 = [0x48#8, 0x69#8, 0x0A#8] ∧
    State.cString (atPc 0#32 [] [(0xFFFFE, 0x41#8), (0xFFFFF, 0x42#8)]) 0x000FFFFE#32 = [0x41#8, 0x42#8] ∧
    State.cString (atPc 0#32 [] []) 0x00100000#32 = [] := by decide

/-- The CSR word (TG18). -/
theorem witness_EverySystemWordIsASyscall :
    (holding 0x300312F3 0x100#32 [] []).status = .running ∧
    FetchedWord (holding 0x300312F3 0x100#32 [] []) 0x300312F3#32 ∧ opcodeOf 0x300312F3#32 = 0b1110011#7 := by
  unfold FetchedWord; decide

/-- A step into each fault kind (FaultsArePrecise, EachFaultComesFromItsRaiser): TH2, TI1, TC15, TD8, TE14, TG13. -/
theorem witness_faulting_steps :
    (∃ t, step (holding 0 0x100#32 [] []) = .next t ∧ t.status = .faulted ∧ t.cause = .invalidInstruction) ∧
    (∃ t, step (atPc 0x00100000#32 [] []) = .next t ∧ t.status = .faulted ∧ t.cause = .invalidRead) ∧
    (∃ t, step (holding 0x00202283 0x100#32 [] []) = .next t ∧ t.status = .faulted ∧ t.cause = .invalidRead) ∧
    (∃ t, step (holding 0x007310A3 0x100#32 [(6, 0x100#32)] []) = .next t ∧ t.status = .faulted ∧
      t.cause = .invalidWrite) ∧
    (∃ t, step (holding 0x00000163 0x100#32 [] []) = .next t ∧ t.status = .faulted ∧ t.cause = .misalignedTarget) ∧
    (∃ t, step (holding 0x00000073 0x100#32 [(10, 0x63#32)] []) = .next t ∧ t.status = .faulted ∧
      t.cause = .unknownSyscall) :=
  ⟨exists_next (by decide), exists_next (by decide), exists_next (by decide), exists_next (by decide),
    exists_next (by decide), exists_next (by decide)⟩

/-- A faulting load of each width, as EachFaultComesFromItsRaiser asks it: one past the bound for LB and LBU (TC12),
misaligned for LH, LHU and LW (TC15, TC17, TC18), whose addresses a byte access accepts. -/
theorem witness_EachFaultComesFromItsRaiser_loads :
    (∃ t, step (holding 0x00030283 0x200#32 [(6, 0x00100000#32)] []) = .next t ∧ Faulted t .invalidRead 0x00100000#32) ∧
    (∃ t, step (holding 0x00134283 0x200#32 [(6, 0x000FFFFF#32)] []) = .next t ∧ Faulted t .invalidRead 0x00100000#32) ∧
    (∃ t, step (holding 0x00131283 0x200#32 [(6, 0x100#32)] []) = .next t ∧ Faulted t .invalidRead 0x101#32) ∧
    (∃ t, step (holding 0x00335283 0x200#32 [(6, 0x100#32)] []) = .next t ∧ Faulted t .invalidRead 0x103#32) ∧
    (∃ t, step (holding 0x00202283 0x200#32 [] []) = .next t ∧ Faulted t .invalidRead 0x2#32) ∧
    AccessOk State.reset 0x101#32 1 ∧ ¬AccessOk State.reset 0x101#32 2 ∧ ¬AccessOk State.reset 0x2#32 4 := by
  refine ⟨exists_next (by decide), exists_next (by decide), exists_next (by decide), exists_next (by decide),
    exists_next (by decide), ?_⟩
  unfold AccessOk; decide

/-- A faulting store of each width: TD11, TD8, TD9. -/
theorem witness_EachFaultComesFromItsRaiser_stores :
    (∃ t, step (holding 0x00730023 0x200#32 [(6, 0x00100000#32)] []) = .next t ∧
      Faulted t .invalidWrite 0x00100000#32) ∧
    (∃ t, step (holding 0x007310A3 0x200#32 [(6, 0x100#32)] []) = .next t ∧ Faulted t .invalidWrite 0x101#32) ∧
    (∃ t, step (holding 0x00732123 0x200#32 [(6, 0x100#32)] []) = .next t ∧ Faulted t .invalidWrite 0x102#32) :=
  ⟨exists_next (by decide), exists_next (by decide), exists_next (by decide)⟩

/-- A misaligned target of a taken branch from an aligned pc, of JAL and of JALR, each recorded: TE14, TF5, TF12. -/
theorem witness_EachFaultComesFromItsRaiser_targets :
    ((atPc 0x100#32 [] []).pc.toNat % 4 = 0 ∧ BranchTaken (holding 0x00000163 0x100#32 [] []) 0x00000163#32) ∧
    (∃ t, step (holding 0x00000163 0x100#32 [] []) = .next t ∧ Faulted t .misalignedTarget 0x102#32) ∧
    (∃ t, step (holding 0x002000EF 0x100#32 [] []) = .next t ∧ Faulted t .misalignedTarget 0x102#32) ∧
    (∃ t, step (holding 0x001300E7 0x100#32 [(6, 0x200#32)] []) = .next t ∧
      Faulted t .misalignedTarget 0x201#32) := by
  refine ⟨?_, exists_next (by decide), exists_next (by decide), exists_next (by decide)⟩
  unfold BranchTaken; decide

/-- TG10 -/
theorem witness_OnlySyscallTenEndsSuccessfully :
    ∃ t, step (holding 0x00000073 0x100#32 [(10, 10#32)] []) = .next t ∧ t.status = .exited :=
  exists_next (by decide)

/-- TG11: a step that appends to the console. -/
theorem witness_ConsoleGrowsOnlyBySyscalls :
    ∃ t, step (holding 0x00000073 0x100#32 [(10, 11#32), (11, 0x141#32)] []) = .next t ∧ t.out = [0x41#8] :=
  exists_next (by decide)

/-- TA1 and TF3: a register written by an ALU instruction, and a link register. -/
theorem witness_OnlyTheDestinationRegisterChanges :
    (∃ t, step (holding 0x007302B3 0x100#32 [(6, 0x7FFFFFFF#32), (7, 1#32)] []) = .next t ∧
      t.readReg 5#5 ≠ (holding 0x007302B3 0x100#32 [(6, 0x7FFFFFFF#32), (7, 1#32)] []).readReg 5#5) ∧
    (∃ t, step (holding 0xFFDFF0EF 0x100#32 [] []) = .next t ∧
      t.readReg 1#5 ≠ (holding 0xFFDFF0EF 0x100#32 [] []).readReg 1#5) :=
  ⟨exists_next (by decide), exists_next (by decide)⟩

/-- SB, SH and SW, each at the last byte it stores: TD10, `sh x7, 0(x6)` and TD12. -/
theorem witness_MemoryChangesOnlyByStores :
    (∃ t, step (holding 0x00730023 0x100#32 [(6, 0x000FFFFF#32), (7, 0x5A#32)] []) = .next t ∧
      t.readMem 0xFFFFF ≠ (holding 0x00730023 0x100#32 [(6, 0x000FFFFF#32), (7, 0x5A#32)] []).readMem 0xFFFFF) ∧
    (∃ t, step (holding 0x00731023 0x100#32 [(6, 0x000FFFFE#32), (7, 0x1234#32)] []) = .next t ∧
      t.readMem 0xFFFFF ≠ (holding 0x00731023 0x100#32 [(6, 0x000FFFFE#32), (7, 0x1234#32)] []).readMem 0xFFFFF) ∧
    (∃ t, step (holding 0x00732023 0x100#32 [(6, 0x000FFFFC#32), (7, 0x01020304#32)] []) = .next t ∧
      t.readMem 0xFFFFF ≠ (holding 0x00732023 0x100#32 [(6, 0x000FFFFC#32), (7, 0x01020304#32)] []).readMem 0xFFFFF) :=
  ⟨exists_next (by decide), exists_next (by decide), exists_next (by decide)⟩

/-- A step from reset with a word placed, for StepKeepsTheInvariant and NoStepChangesTheParameters. -/
theorem witness_StepKeepsTheInvariant :
    (holding 0x00732023 0x100#32 [(6, 0x100#32), (7, 1#32)] []).Inv ∧
    ∃ t, step (holding 0x00732023 0x100#32 [(6, 0x100#32), (7, 1#32)] []) = .next t ∧ t.status = .running :=
  ⟨by decide, exists_next (by decide)⟩

/-- Parameters other than the test vectors', with the least memory, an image and no alignment check. -/
def smallMachine : Config where
  memSize := 104
  enforceAlign := false
  syscallNumReg := 17#5
  syscallArgReg := 10#5
  exitNotice := [0x42#8]
  memInit := [(0, 0x93#8), (1, 0x02#8), (2, 0x10#8)]

theorem witness_ResetMeetsTheInvariant : smallMachine.wf ∧ Config.testVectors.wf := by decide

/-- Reachable states by each constructor: reset, a step (`addi x5, x0, 1` from the image), reset again. -/
theorem witness_ReachableStatesMeetTheInvariant :
    smallMachine.wf ∧ Reachable smallMachine (State.resetWith smallMachine) ∧
    (∃ t, Reachable smallMachine t ∧ t.readReg 5#5 = 1#32 ∧ Reachable smallMachine t.applyReset) := by
  obtain ⟨t, ht, h5⟩ : ∃ t, step (State.resetWith smallMachine) = .next t ∧ t.readReg 5#5 = 1#32 :=
    exists_next (by decide)
  have hr : Reachable smallMachine t := .step .reset ht
  exact ⟨by decide, .reset, t, hr, h5, .resetAgain hr⟩

end Sys2Proof.Tests
end

section
/-! SUPPORT. Which words the decoder refuses for an unrecognised opcode, operation or comparison. -/

namespace Sys2Proof

/-- A field that is not the number of any of the ten opcodes names none (R85, R103). -/
theorem ofBits_eq_none {b : BitVec 7} (h : ∀ o : Opcode, b ≠ o.bits) : Opcode.ofBits b = none :=
  Option.eq_none_iff_forall_ne_some.mpr fun o ho => h o (bits_of_ofBits ho)

/-- R89 (a), R103. -/
theorem decode_of_unrecognised_opcode {w : Word} (h : ∀ o : Opcode, opcodeOf w ≠ o.bits) :
    decode w = .error .unrecognisedOpcode := by
  rw [decode, ofBits_eq_none h]

/-- R89 (b), R125: the fourteen rows of OP are the only ones. -/
theorem decodeOp_of_unrecognised {f7 : BitVec 7} {f3 : BitVec 3} (rd rs1 rs2 : RegIdx)
    (h : (f7, f3) ∉
      [(0b0000000#7, 0b000#3), (0b0100000#7, 0b000#3), (0b0000000#7, 0b001#3), (0b0000000#7, 0b010#3),
       (0b0000000#7, 0b011#3), (0b0000000#7, 0b100#3), (0b0000000#7, 0b101#3), (0b0100000#7, 0b101#3),
       (0b0000000#7, 0b110#3), (0b0000000#7, 0b111#3), (0b0000001#7, 0b000#3), (0b0000001#7, 0b001#3),
       (0b0000001#7, 0b100#3), (0b0000001#7, 0b110#3)]) :
    decodeOp f7 f3 rd rs1 rs2 = .error .unrecognisedOperation := by
  unfold decodeOp
  split
  case h_15 => rfl
  all_goals exact absurd (by decide) h

/-- R89 (e), R157. -/
theorem decodeBranch_of_unrecognised {f3 : BitVec 3} (rs1 rs2 : RegIdx) (off : BitVec 13)
    (h : f3 ∈ [0b010#3, 0b011#3]) : decodeBranch f3 rs1 rs2 off = .error .unrecognisedComparison := by
  obtain rfl | rfl : f3 = 0b010#3 ∨ f3 = 0b011#3 := by simpa using h
  · rfl
  · rfl

end Sys2Proof
end

section
/-! SUPPORT. The step on a word that is no instruction, and the missing step of a halted machine. -/

namespace Sys2Proof.Machine

/-- A halted machine has no step (R105). -/
theorem step_of_not_running {s : State} (h : s.status ≠ .running) : step s = .fault .halted := if_neg h

/-- A fetched word that is no instruction raises InvalidInstruction(word) (R89, R103). -/
theorem step_of_decode_error {s : State} {w : Word} {e : DecodeError} (hr : s.status = .running)
    (hw : FetchedWord s w) (he : decode w = .error e) : step s = s.fail ⟨.invalidInstruction, w⟩ := by
  rw [step, if_pos hr, fetch_eq_ok.mpr hw]
  dsimp only
  rw [he]

end Sys2Proof.Machine
end

section
/-! SUPPORT. Unrecognised encodings (R103, R125, R157). -/

namespace Sys2Proof.Machine

/-- Settles O13: each of the three clauses makes the decoder refuse the word, so the step raises InvalidInstruction(word),
which leaves a FAULTED machine. -/
theorem unrecognisedEncodingsFault : Obligations.UnrecognisedEncodingsFault := by
  intro s w hr hw h
  obtain ⟨e, he⟩ : ∃ e, decode w = .error e := by
    rcases h with hop | ⟨hop, hsel⟩ | ⟨hop, hsel⟩
    · refine ⟨_, decode_of_unrecognised_opcode fun o ho => hop ?_⟩
      rw [ho]
      cases o <;> decide
    · exact ⟨_, (decode_op hop).trans (decodeOp_of_unrecognised _ _ _ hsel)⟩
    · exact ⟨_, (decode_branch hop).trans (decodeBranch_of_unrecognised _ _ _ hsel)⟩
  exact ⟨s.raise ⟨.invalidInstruction, w⟩, step_of_decode_error hr hw he, raise_records s _, rfl,
    step_of_not_running (by simp)⟩

end Sys2Proof.Machine
end

section
/-! SUPPORT. The register-register instructions: the word of each (R86), the value each writes (41_alu_register.md
section 2), and the one next state of their shared form. -/

namespace Sys2Proof

/-- A word of opcode OP is what the minor map of R86 gives its operation fields. -/
theorem decode_op_of_functs {w : Word} {f7 : BitVec 7} {f3 : BitVec 3} (hop : opcodeOf w = 0b0110011#7)
    (h7 : funct7Of w = f7) (h3 : funct3Of w = f3) :
    decode w = decodeOp f7 f3 (rdOf w) (rs1Of w) (rs2Of w) := by
  rw [decode_op hop, h7, h3]

end Sys2Proof

namespace Sys2Proof.Machine

/-- ADD is the wrapped sum (R111). -/
theorem aluAdd_eq (a b : Word) : aluAdd a b = u32 (a.toNat + b.toNat) := by
  rw [u32, BitVec.ofInt_add]
  simp [aluAdd]

/-- SUB is the wrapped difference (R112). -/
theorem aluSub_eq (a b : Word) : aluSub a b = u32 (a.toNat - b.toNat) := by
  rw [u32, Int.sub_eq_add_neg, BitVec.ofInt_add, BitVec.ofInt_neg]
  simp [aluSub, BitVec.sub_eq_add_neg]

/-- SLT is 1 or 0 by the signed readings (R114). -/
theorem aluSlt_eq (a b : Word) : aluSlt a b = if s32 a < s32 b then 1#32 else 0#32 := by
  simp [aluSlt, boolWord, cmpLt]

/-- SLTU is 1 or 0 by the unsigned readings (R115). -/
theorem aluSltu_eq (a b : Word) : aluSltu a b = if a.toNat < b.toNat then 1#32 else 0#32 := by
  simp [aluSltu, boolWord, cmpLtu]

/-- R116. -/
theorem getLsbD_aluXor (a b : Word) (k : Nat) : (aluXor a b).getLsbD k = (a.getLsbD k != b.getLsbD k) :=
  BitVec.getLsbD_xor

/-- R119. -/
theorem getLsbD_aluOr (a b : Word) (k : Nat) : (aluOr a b).getLsbD k = (a.getLsbD k || b.getLsbD k) :=
  BitVec.getLsbD_or

/-- R120. -/
theorem getLsbD_aluAnd (a b : Word) (k : Nat) : (aluAnd a b).getLsbD k = (a.getLsbD k && b.getLsbD k) :=
  BitVec.getLsbD_and

/-- An instruction of the register-register form completes in every state, writes its operation of the two registers to
`rd` and moves to the next word (R26). -/
theorem completes_of_opReg {i : Instr} {s : State} {f : Word → Word → Word} {rd rs1 rs2 : RegIdx} {v : Word}
    (hi : exec i s = opReg f rd rs1 rs2 s) (hv : f (s.readReg rs1) (s.readReg rs2) = v) :
    Completes i s fun t => WritesReg s t rd v (s.pc + 4#32) := by
  rw [Completes, hi]
  exact finish_completes s rd hv

/-- The same where the value is given by its bits. -/
theorem completes_of_opReg_bits {i : Instr} {s : State} {f : Word → Word → Word} {rd rs1 rs2 : RegIdx} {v : Word}
    (hi : exec i s = opReg f rd rs1 rs2 s)
    (hv : ∀ k, (f (s.readReg rs1) (s.readReg rs2)).getLsbD k = v.getLsbD k) :
    Completes i s fun t => WritesReg s t rd v (s.pc + 4#32) :=
  completes_of_opReg hi (BitVec.eq_of_getLsbD_eq fun k _ => hv k)

end Sys2Proof.Machine
end

section
/-! SUPPORT. ADD, SUB, SLT, SLTU, XOR, OR, AND and MUL (R111, R112, R114 to R116, R119 to R121). -/

namespace Sys2Proof.Machine

/-- Settles O20: both are of the register-register form, with the wrapped sum and difference. -/
theorem addAndSubtract : Obligations.AddAndSubtract := by
  refine ⟨fun w hop h3 => ⟨?_, ?_⟩, fun s rd rs1 rs2 => ⟨?_, ?_⟩⟩
  · exact fun h7 => decode_op_of_functs hop h7 h3
  · exact fun h7 => decode_op_of_functs hop h7 h3
  · exact completes_of_opReg rfl (aluAdd_eq _ _)
  · exact completes_of_opReg rfl (aluSub_eq _ _)

/-- Settles O21: both are of the register-register form, with the signed and the unsigned comparison. -/
theorem setLessThan : Obligations.SetLessThan := by
  refine ⟨fun w hop h7 => ⟨?_, ?_⟩, fun s rd rs1 rs2 => ⟨?_, ?_⟩⟩
  · exact fun h3 => decode_op_of_functs hop h7 h3
  · exact fun h3 => decode_op_of_functs hop h7 h3
  · exact completes_of_opReg rfl (aluSlt_eq _ _)
  · exact completes_of_opReg rfl (aluSltu_eq _ _)

/-- Settles O22: the value written is determined by its bits. -/
theorem bitwiseOperations : Obligations.BitwiseOperations := by
  refine ⟨fun w hop h7 => ⟨?_, ?_, ?_⟩, fun s rd rs1 rs2 v => ⟨fun hv => ?_, fun hv => ?_, fun hv => ?_⟩⟩
  · exact fun h3 => decode_op_of_functs hop h7 h3
  · exact fun h3 => decode_op_of_functs hop h7 h3
  · exact fun h3 => decode_op_of_functs hop h7 h3
  · exact completes_of_opReg_bits rfl fun k => (getLsbD_aluXor _ _ k).trans (hv k).symm
  · exact completes_of_opReg_bits rfl fun k => (getLsbD_aluOr _ _ k).trans (hv k).symm
  · exact completes_of_opReg_bits rfl fun k => (getLsbD_aluAnd _ _ k).trans (hv k).symm

/-- Settles O24: MUL is of the register-register form, with the wrapped signed product. -/
theorem multiplyLowWord : Obligations.MultiplyLowWord := by
  refine ⟨fun w hop h7 h3 => ?_, fun s rd rs1 rs2 => ?_⟩
  · exact decode_op_of_functs hop h7 h3
  · exact completes_of_opReg rfl (aluMul_eq _ _)

end Sys2Proof.Machine
end

section
/-! SUPPORT. The register-immediate instructions without a shift count: the word of each (R87), the immediate they use
(R78), and the one next state of their shared form (R130). -/

namespace Sys2Proof

/-- A word of opcode OP-IMM is what the minor map of R87 gives its selector. -/
theorem decode_opImm_of_funct3 {w : Word} {f3 : BitVec 3} (hop : opcodeOf w = 0b0010011#7) (h3 : funct3Of w = f3) :
    decode w = decodeOpImm (funct7Of w) f3 (rdOf w) (rs1Of w) (iField w) (shamtOf w) := by
  rw [decode_opImm hop, h3]

end Sys2Proof

namespace Sys2Proof.Machine

/-- Sign extension is the word of the signed reading (R6). -/
theorem sext_eq_u32 {n : Nat} (x : BitVec n) : sext x = u32 x.toInt := rfl

/-- Bits 31..11 of a sign-extended 12-bit immediate are its bit 11, the bits below are its own (R78). -/
theorem getLsbD_sext_imm (imm : BitVec 12) {k : Nat} (hk : k < 32) :
    (sext imm).getLsbD k = imm.getLsbD (min k 11) := by
  rw [sext, BitVec.getLsbD_signExtend]
  by_cases hlow : k < 12
  · have hmin : min k 11 = k := by omega
    simp [hk, hlow, hmin]
  · have hmin : min k 11 = 11 := by omega
    simp [hk, hlow, hmin, BitVec.msb_eq_getLsbD_last]

/-- An instruction of the register-immediate form completes in every state, writes its operation of the register and the
sign-extended immediate to `rd` and moves to the next word (R130). -/
theorem completes_of_opImm {i : Instr} {s : State} {f : Word → Word → Word} {rd rs1 : RegIdx} {imm : BitVec 12}
    {v : Word} (hi : exec i s = opImm f rd rs1 imm s) (hv : f (s.readReg rs1) (sext imm) = v) :
    Completes i s fun t => WritesReg s t rd v (s.pc + 4#32) := by
  rw [Completes, hi]
  exact finish_completes s rd hv

/-- The same for an operation `f` that acts as `g` on each bit. -/
theorem completes_of_opImm_bitwise {i : Instr} {s : State} {f : Word → Word → Word} {rd rs1 : RegIdx}
    {imm : BitVec 12} {v : Word} (g : Bool → Bool → Bool) (hi : exec i s = opImm f rd rs1 imm s)
    (hf : ∀ a b k, (f a b).getLsbD k = g (a.getLsbD k) (b.getLsbD k))
    (hv : ∀ k, k < 32 → v.getLsbD k = g ((s.readReg rs1).getLsbD k) (imm.getLsbD (min k 11))) :
    Completes i s fun t => WritesReg s t rd v (s.pc + 4#32) := by
  refine completes_of_opImm hi (BitVec.eq_of_getLsbD_eq fun k hk => ?_)
  rw [hf, getLsbD_sext_imm imm hk, hv k hk]

end Sys2Proof.Machine
end

section
/-! SUPPORT. ADDI, SLTI, SLTIU, XORI, ORI and ANDI (R131 to R136). -/

namespace Sys2Proof.Machine

/-- Settles O28: the three are of the register-immediate form; the signed reading of the extended immediate is the
immediate's own, its unsigned reading that of `u32(imm)`. -/
theorem immediateAddAndCompare : Obligations.ImmediateAddAndCompare := by
  refine ⟨fun w hop => ⟨?_, ?_, ?_⟩, fun s rd rs1 imm => ⟨?_, ?_, ?_⟩⟩
  · exact fun h3 => decode_opImm_of_funct3 hop h3
  · exact fun h3 => decode_opImm_of_funct3 hop h3
  · exact fun h3 => decode_opImm_of_funct3 hop h3
  · exact completes_of_opImm rfl (add_sext _ _)
  · refine completes_of_opImm rfl ?_
    rw [aluSlt_eq, s32_sext imm (by decide)]
  · refine completes_of_opImm rfl ?_
    rw [aluSltu_eq, sext_eq_u32]

/-- Settles O29: the three are of the register-immediate form, and the value written is determined by its bits. -/
theorem immediateBitwise : Obligations.ImmediateBitwise := by
  refine ⟨fun w hop => ⟨?_, ?_, ?_⟩, fun s rd rs1 imm v => ⟨fun hv => ?_, fun hv => ?_, fun hv => ?_⟩⟩
  · exact fun h3 => decode_opImm_of_funct3 hop h3
  · exact fun h3 => decode_opImm_of_funct3 hop h3
  · exact fun h3 => decode_opImm_of_funct3 hop h3
  · exact completes_of_opImm_bitwise bne rfl getLsbD_aluXor hv
  · exact completes_of_opImm_bitwise or rfl getLsbD_aluOr hv
  · exact completes_of_opImm_bitwise and rfl getLsbD_aluAnd hv

end Sys2Proof.Machine
end

section
/-! SUPPORT. The words of the control-flow instructions (R88, R90). -/

namespace Sys2Proof

variable {w : Word}

/-- A word of opcode BRANCH is what the minor map of R88 gives its selector. -/
theorem decode_branch_of_funct3 {f3 : BitVec 3} (hop : opcodeOf w = 0b1100011#7) (h3 : funct3Of w = f3) :
    decode w = decodeBranch f3 (rs1Of w) (rs2Of w) (bField w) := by
  rw [decode_branch hop, h3]

theorem decode_jal (hop : opcodeOf w = 0b1101111#7) : decode w = .ok (.jal (rdOf w) (jField w)) := by
  simp [decode, hop, Opcode.ofBits]

/-- JALR examines no field beyond the opcode (R90). -/
theorem decode_jalr (hop : opcodeOf w = 0b1100111#7) : decode w = .ok (.jalr (rdOf w) (rs1Of w) (iField w)) := by
  simp [decode, hop, Opcode.ofBits]

theorem decode_lui (hop : opcodeOf w = 0b0110111#7) : decode w = .ok (.lui (rdOf w) (uField w)) := by
  simp [decode, hop, Opcode.ofBits]

theorem decode_auipc (hop : opcodeOf w = 0b0010111#7) : decode w = .ok (.auipc (rdOf w) (uField w)) := by
  simp [decode, hop, Opcode.ofBits]

end Sys2Proof
end

section
/-! SUPPORT. The shared forms of the control transfers in the terms of the statements: the branch conditions (R151 to
R156), the branch form (R150, R158), the jump form (R159, R160), and the values of the upper immediates (R161, R162). -/

namespace Sys2Proof.Machine

theorem cmpEq_iff {a b : Word} : cmpEq a b = true ↔ a = b := by simp [cmpEq]

theorem cmpNe_iff {a b : Word} : cmpNe a b = true ↔ a ≠ b := by simp [cmpNe]

theorem cmpLt_iff {a b : Word} : cmpLt a b = true ↔ s32 a < s32 b := by simp [cmpLt]

theorem cmpGe_iff {a b : Word} : cmpGe a b = true ↔ s32 a ≥ s32 b := by simp [cmpGe]

theorem cmpLtu_iff {a b : Word} : cmpLtu a b = true ↔ a.toNat < b.toNat := by simp [cmpLtu]

theorem cmpGeu_iff {a b : Word} : cmpGeu a b = true ↔ a.toNat ≥ b.toNat := by simp [cmpGeu]

/-- The word after an aligned one is aligned, also where the sum wraps (R25, R26). -/
theorem add_four_aligned {a : Word} (h : a.toNat % 4 = 0) : (a + 4#32).toNat % 4 = 0 := by
  rw [BitVec.toNat_add, BitVec.toNat_ofNat]
  omega

section
variable {s : State} {cond : Word → Word → Bool} {rs1 rs2 : RegIdx} (off : BitVec 13)

/-- A branch whose condition holds transfers to the branch target (R150). -/
theorem branch_of_taken (h : cond (s.readReg rs1) (s.readReg rs2) = true) :
    branch cond rs1 rs2 off s = transfer (u32 (s.pc.toNat + off.toInt)) s := by
  rw [branch, if_pos h, branchTarget, add_sext]

/-- A branch whose condition fails transfers to the next word (R150). -/
theorem branch_of_not_taken (h : ¬cond (s.readReg rs1) (s.readReg rs2) = true) :
    branch cond rs1 rs2 off s = transfer (s.pc + 4#32) s := by
  rw [branch, if_neg h, nextPc_eq]

end

/-- An instruction of the branch form follows the rule of branches, from an aligned pc, for what its comparison decides:
the next word is then aligned, so that only a taken branch can fault. -/
theorem branchRule_of_branch {i : Instr} {s : State} {cond : Word → Word → Bool} {rs1 rs2 : RegIdx} {off : BitVec 13}
    {taken : Prop} (hi : exec i s = branch cond rs1 rs2 off s)
    (hc : cond (s.readReg rs1) (s.readReg rs2) = true ↔ taken) (hpc : s.pc.toNat % 4 = 0) :
    BranchRule i s off taken := by
  unfold BranchRule Completes
  refine ⟨fun ht ha => ?_, fun ht ha => ?_, fun ht => ?_⟩
  · rw [hi, branch_of_taken off (hc.mpr ht)]
    exact transfer_completes ha
  · rw [hi, branch_of_taken off (hc.mpr ht)]
    exact transfer_records ha
  · rw [hi, branch_of_not_taken off fun h => ht (hc.mp h), ← add_four]
    exact transfer_completes (add_four_aligned hpc)

/-- An instruction of the jump form writes the return address and jumps to an aligned target, and raises MisalignedTarget
of any other with `rd` not written (R158). -/
theorem completes_of_jump {i : Instr} {s : State} {rd : RegIdx} {p target : Word} (hi : exec i s = jump rd p s)
    (hp : p = target) :
    (target.toNat % 4 = 0 → Completes i s fun t => WritesReg s t rd (u32 (s.pc.toNat + 4)) target) ∧
    (target.toNat % 4 ≠ 0 → Completes i s fun t => RecordsFault s t .misalignedTarget target) := by
  subst hp
  rw [Completes, Completes, hi, ← add_four]
  exact ⟨jump_completes, jump_records⟩

/-- The upper immediate is the field shifted left 12 bits (R161). -/
theorem upperImm_eq (x : BitVec 20) : upperImm x = u32 (x.toNat * 4096) := by
  rw [← u32_natCast (upperImm x), upperImm_toNat]
  push_cast
  rfl

/-- A word plus an upper immediate is the wrapped sum (R162). -/
theorem add_upperImm (a : Word) (x : BitVec 20) : a + upperImm x = u32 (a.toNat + x.toNat * 4096) := by
  rw [u32, BitVec.ofInt_add, upperImm_eq]
  simp

end Sys2Proof.Machine
end

section
/-! SUPPORT. The branches, JAL, JALR, LUI and AUIPC (R151 to R162). -/

namespace Sys2Proof.Machine

/-- Settles O36: the six are of the branch form, each with the comparison that its condition states. -/
theorem branches : Obligations.Branches := by
  refine ⟨fun w hop => ⟨?_, ?_, ?_, ?_, ?_, ?_⟩, fun s rs1 rs2 off hpc => ⟨?_, ?_, ?_, ?_, ?_, ?_⟩⟩
  · exact fun h3 => decode_branch_of_funct3 hop h3
  · exact fun h3 => decode_branch_of_funct3 hop h3
  · exact fun h3 => decode_branch_of_funct3 hop h3
  · exact fun h3 => decode_branch_of_funct3 hop h3
  · exact fun h3 => decode_branch_of_funct3 hop h3
  · exact fun h3 => decode_branch_of_funct3 hop h3
  · exact branchRule_of_branch rfl cmpEq_iff hpc
  · exact branchRule_of_branch rfl cmpNe_iff hpc
  · exact branchRule_of_branch rfl cmpLt_iff hpc
  · exact branchRule_of_branch rfl cmpGe_iff hpc
  · exact branchRule_of_branch rfl cmpLtu_iff hpc
  · exact branchRule_of_branch rfl cmpGeu_iff hpc

/-- Settles O37: JAL is of the jump form, its target the wrapped sum of the pc and the offset. -/
theorem jumpAndLink : Obligations.JumpAndLink :=
  ⟨fun _ hop => decode_jal hop, fun _ _ _ => completes_of_jump rfl (add_sext _ _)⟩

/-- Settles O38: JALR is of the jump form, its target the wrapped sum of the register and the immediate. -/
theorem jumpAndLinkRegister : Obligations.JumpAndLinkRegister :=
  ⟨fun _ hop => decode_jalr hop, fun _ _ _ _ => completes_of_jump rfl (add_sext _ _)⟩

/-- Settles O39: both complete with a register write, of the shifted immediate and of its sum with the pc. -/
theorem upperImmediates : Obligations.UpperImmediates := by
  refine ⟨fun w => ⟨decode_lui, decode_auipc⟩, fun s rd imm20 => ⟨?_, ?_⟩⟩
  · exact finish_completes s rd (upperImm_eq imm20)
  · exact finish_completes s rd (add_upperImm s.pc imm20)

end Sys2Proof.Machine
end

section
/-! SUPPORT. The words of LOAD and STORE (R88), the sum they address memory with (R170), and what is particular to a
one-byte access: its check (R42), and the two ways the byte is made a word (R172, R175). -/

namespace Sys2Proof

variable {w : Word} {f3 : BitVec 3}

/-- A word of opcode LOAD is what the minor map of R88 gives its selector. -/
theorem decode_load_of_funct3 (hop : opcodeOf w = 0b0000011#7) (h3 : funct3Of w = f3) :
    decode w = decodeLoad f3 (rdOf w) (rs1Of w) (iField w) := by
  rw [decode_load hop, h3]

/-- A word of opcode STORE is what the minor map of R88 gives its selector. -/
theorem decode_store_of_funct3 (hop : opcodeOf w = 0b0100011#7) (h3 : funct3Of w = f3) :
    decode w = decodeStore f3 (rs1Of w) (rs2Of w) (sField w) := by
  rw [decode_store hop, h3]

end Sys2Proof

namespace Sys2Proof.Machine

/-- The effective address is the wrapped sum of the base register and the displacement (R170). -/
theorem effAddr_eq (s : State) (rs1 : RegIdx) (imm : BitVec 12) :
    effAddr s rs1 imm = u32 ((s.readReg rs1).toNat + imm.toInt) := add_sext _ _

/-- One byte is accessible exactly below the bound: it cannot straddle it and is never misaligned (R42). -/
theorem accessOk_byte_iff {s : State} {ea : Word} : AccessOk s ea Width.byte.bytes ↔ ea.toNat < s.cfg.memSize := by
  unfold AccessOk Width.bytes
  exact ⟨fun ⟨h, _, _⟩ => h, fun h => ⟨h, h, fun _ => Nat.mod_one _⟩⟩

/-- At or past the bound no byte is accessible. -/
theorem not_accessOk_byte {s : State} {ea : Word} (h : s.cfg.memSize ≤ ea.toNat) :
    ¬AccessOk s ea Width.byte.bytes := fun hok => absurd (accessOk_byte_iff.mp hok) (Nat.not_lt.mpr h)

/-- LB extends the byte read to the word of its signed reading (R172). -/
theorem extendByte_leWord_readBytes (m : Memory) (a : Nat) :
    extendByte (leWord (readBytes m a Width.byte.bytes)) = u32 (readByte m a).toInt := by
  have hlow : ((readByte m a).setWidth 32).extractLsb' 0 8 = readByte m a := by
    simp [← BitVec.setWidth_eq_extractLsb']
  rw [extendByte, Width.bytes, leWord_readBytes_byte, hlow, sext_eq_u32]

/-- LBU leaves the byte read as the word of its unsigned reading (R175). -/
theorem extendNone_leWord_readBytes (m : Memory) (a : Nat) :
    extendNone (leWord (readBytes m a Width.byte.bytes)) = u32 (readByte m a).toNat := by
  rw [extendNone, Width.bytes, leWord_readBytes_byte, u32, BitVec.ofInt_natCast, BitVec.ofNat_toNat]

end Sys2Proof.Machine
end

section
/-! SUPPORT. LB, LBU and SB (R172, R175, R177). -/

namespace Sys2Proof.Machine

/-- Settles O31: both are one-byte loads, with the sign-extended and the zero-extended byte. -/
theorem loadByte : Obligations.LoadByte := by
  refine ⟨fun w hop => ⟨?_, ?_⟩, fun s rd rs1 imm => ?_⟩
  · exact fun h3 => decode_load_of_funct3 hop h3
  · exact fun h3 => decode_load_of_funct3 hop h3
  · dsimp only
    rw [← effAddr_eq]
    refine ⟨fun hlt => ?_, fun hge => ?_⟩
    · have hok := accessOk_byte_iff.mpr hlt
      exact ⟨load_completes hok (extendByte_leWord_readBytes _ _),
        load_completes hok (extendNone_leWord_readBytes _ _)⟩
    · have hno := not_accessOk_byte hge
      exact ⟨load_records hno, load_records hno⟩

/-- Settles O33: SB is the one-byte store. -/
theorem storeByte : Obligations.StoreByte := by
  refine ⟨fun w hop h3 => ?_, fun s rs1 rs2 imm hm => ⟨?_, fun hlt => ?_, fun hge => ?_⟩⟩
  · exact decode_store_of_funct3 hop h3
  · exact (effAddr_eq s rs1 imm).symm
  · exact store_completes hm (accessOk_byte_iff.mpr hlt)
  · exact store_records (not_accessOk_byte hge)

end Sys2Proof.Machine
end

section
/-! SUPPORT. The meaning of ECALL for each syscall number (R190), the string and the character it prints in the terms of
the statements (R192, R194), and what the host reads after a halt (R220). -/

namespace Sys2Proof.Machine

variable {s : State}

/-- Print string (R192). -/
theorem exec_ecall_of_four (h : s.readReg s.cfg.syscallNumReg = 4#32) :
    exec .ecall s = .next (s.emit (s.cString (s.readReg s.cfg.syscallArgReg))).advance := by
  simp [exec, execEcall, h]

/-- Exit (R193). -/
theorem exec_ecall_of_ten (h : s.readReg s.cfg.syscallNumReg = 10#32) :
    exec .ecall s = .next (s.emit s.cfg.exitNotice).haltExit := by
  simp [exec, execEcall, h]

/-- Print character (R194). -/
theorem exec_ecall_of_eleven (h : s.readReg s.cfg.syscallNumReg = 11#32) :
    exec .ecall s = .next (s.emit [(s.readReg s.cfg.syscallArgReg).extractLsb' 0 8]).advance := by
  simp [exec, execEcall, h]

/-- Any other number (R195). -/
theorem exec_ecall_of_unknown (h : s.readReg s.cfg.syscallNumReg ∉ [1#32, 4#32, 10#32, 11#32]) :
    exec .ecall s = s.fail ⟨.unknownSyscall, s.readReg s.cfg.syscallNumReg⟩ := by
  obtain ⟨h1, h4, h10, h11⟩ : s.readReg s.cfg.syscallNumReg ≠ 1#32 ∧ s.readReg s.cfg.syscallNumReg ≠ 4#32 ∧
      s.readReg s.cfg.syscallNumReg ≠ 10#32 ∧ s.readReg s.cfg.syscallNumReg ≠ 11#32 := by simpa using h
  rw [exec, execEcall, if_neg h1, if_neg h4, if_neg h10, if_neg h11]

/-- Every byte of the string is the non-zero byte of memory at its address, below the bound (R192). -/
theorem cString_getElem (s : State) (v : Word) (k : Nat) (h : k < (s.cString v).length) :
    v.toNat + k < s.cfg.memSize ∧ (s.cString v)[k] = s.readMem (v.toNat + k) ∧ (s.cString v)[k] ≠ 0#8 := by
  obtain ⟨hk, hbyte, hne⟩ := (scanString_spec s.mem (s.cfg.memSize - v.toNat) v.toNat).1 k h
  exact ⟨by omega, hbyte, hne⟩

/-- The string ends at the bound or at a zero byte (R192). -/
theorem cString_end (s : State) (v : Word) :
    s.cfg.memSize ≤ v.toNat + (s.cString v).length ∨ s.readMem (v.toNat + (s.cString v).length) = 0#8 := by
  refine (scanString_spec s.mem (s.cfg.memSize - v.toNat) v.toNat).2.imp_left fun hlen => ?_
  rw [State.cString, hlen]
  omega

/-- Bits 7..0 of a word are its value modulo 256 (R194). -/
theorem extractLsb'_low_byte (v : Word) : v.extractLsb' 0 8 = BitVec.ofNat 8 v.toNat := by
  rw [BitVec.ofNat_toNat, BitVec.setWidth_eq_extractLsb' (by decide)]

/-- The host reads the memory and every register of a machine that has halted (R220). -/
theorem hostView_of_not_running (h : s.status ≠ .running) :
    ∃ v, s.hostView = some v ∧ v.mem = s.mem ∧ ∀ r : RegIdx, v.regs[r.toNat]? = some (s.readReg r) := by
  refine ⟨_, if_neg h, rfl, fun r => ?_⟩
  rw [List.getElem?_map, List.getElem?_range r.isLt, Option.map_some, BitVec.ofNat_toNat, BitVec.setWidth_eq]

end Sys2Proof.Machine
end

section
/-! SUPPORT. Syscalls 4, 10 and 11, and the unknown ones (R192 to R195). -/

namespace Sys2Proof.Machine

/-- Settles O42: the bytes are those of the scan. -/
theorem printString : Obligations.PrintString := by
  intro s h
  exact ⟨_, cString_getElem s _, cString_end s _, _, exec_ecall_of_four h, emit_advance_emits s _⟩

/-- Settles O43: the next state is EXITED, so it has no step and the host's view of it is open. -/
theorem exitHaltsWithSuccess : Obligations.ExitHaltsWithSuccess := by
  intro s h
  have hhalted : (s.emit s.cfg.exitNotice).haltExit.status ≠ .running := by simp
  exact ⟨_, exec_ecall_of_ten h, rfl, rfl, rfl, rfl, fun _ => rfl, fun _ => rfl, rfl, rfl,
    step_of_not_running hhalted, hostView_of_not_running hhalted⟩

/-- Settles O44: the byte emitted is bits 7..0 of the argument. -/
theorem printCharacter : Obligations.PrintCharacter := by
  intro s h
  rw [← extractLsb'_low_byte]
  exact ⟨_, exec_ecall_of_eleven h, emit_advance_emits s _⟩

/-- Settles O45: no branch of the syscall table is taken, so the fault is. -/
theorem unknownSyscallFaults : Obligations.UnknownSyscallFaults := by
  intro s h
  exact ⟨_, exec_ecall_of_unknown h, raise_records s _, rfl⟩

end Sys2Proof.Machine
end

section
/-! SUPPORT. The decoder on the words of each format (R72 to R77, R83): the opcode selects the minor map, which receives
the operation fields and the operands the word was assembled from. -/

namespace Sys2Proof

variable (f7 : BitVec 7) (f3 : BitVec 3) (rd rs1 rs2 : RegIdx) (imm : BitVec 12) (shamt : BitVec 5)

theorem decode_rWord : decode (rWord f7 rs2 rs1 f3 rd .op) = decodeOp f7 f3 rd rs1 rs2 := by simp [decode]

theorem decode_iWord_load : decode (iWord imm rs1 f3 rd .load) = decodeLoad f3 rd rs1 imm := by simp [decode]

/-- The upper bits of the immediate stand where a shift has its type and its count. -/
theorem decode_iWord_opImm :
    decode (iWord imm rs1 f3 rd .opImm) =
      decodeOpImm (funct7Of (iWord imm rs1 f3 rd .opImm)) f3 rd rs1 imm (shamtOf (iWord imm rs1 f3 rd .opImm)) := by
  simp [decode]

theorem decode_iWord_jalr : decode (iWord imm rs1 f3 rd .jalr) = .ok (.jalr rd rs1 imm) := by simp [decode]

theorem decode_iWord_system : decode (iWord imm rs1 f3 rd .system) = .ok .ecall := by simp [decode]

theorem decode_shiftWord :
    decode (shiftWord f7 shamt rs1 f3 rd) = decodeOpImm f7 f3 rd rs1 (iField (shiftWord f7 shamt rs1 f3 rd)) shamt := by
  simp [decode]

theorem decode_sWord : decode (sWord imm rs2 rs1 f3) = decodeStore f3 rs1 rs2 imm := by simp [decode]

theorem decode_bWord {off : BitVec 13} (h : offBOk off = true) :
    decode (bWord off rs2 rs1 f3) = decodeBranch f3 rs1 rs2 off := by simp [decode, bField_bWord _ _ _ _ h]

theorem decode_jWord {off : BitVec 21} (h : offJOk off = true) : decode (jWord off rd) = .ok (.jal rd off) := by
  simp [decode, jField_jWord _ _ h]

theorem decode_uWord_lui (imm20 : BitVec 20) : decode (uWord imm20 rd .lui) = .ok (.lui rd imm20) := by simp [decode]

theorem decode_uWord_auipc (imm20 : BitVec 20) : decode (uWord imm20 rd .auipc) = .ok (.auipc rd imm20) := by
  simp [decode]

end Sys2Proof
end

section
/-! SUPPORT. Encoding, then decoding, as words and as bytes (sections 1 to 5 of 30_encoding.md). -/

namespace Sys2Proof

/-- Settles O1: the canonical word is of the instruction's format, whose minor map has a row for its operation fields;
only the B and J formats lose a bit, which is 0 in a well-formed term. -/
theorem decodeOfEncode : Obligations.DecodeOfEncode := by
  intro i hwf
  cases i
  case add | sub | sll | slt | sltu | xor | srl | sra | or | and | mul | mulh | div | rem => exact decode_rWord ..
  case addi | slti | sltiu | xori | ori | andi => exact decode_iWord_opImm ..
  case slli | srli | srai => exact decode_shiftWord ..
  case lb | lh | lw | lbu | lhu => exact decode_iWord_load ..
  case sb | sh | sw => exact decode_sWord ..
  case beq | bne | blt | bge | bltu | bgeu => exact decode_bWord _ _ _ hwf
  case jal => exact decode_jWord _ hwf
  case jalr => exact decode_iWord_jalr ..
  case lui => exact decode_uWord_lui ..
  case auipc => exact decode_uWord_auipc ..
  case ecall => exact decode_iWord_system ..

/-- The byte decoder reads the word that the first four bytes spell, least significant first, and leaves the rest (R48,
R70). -/
theorem decodeBytes_leBytes {w : Word} {i : Instr} (h : decode w = .ok i) (rest : List Byte) :
    decodeBytes (leBytes 4 w ++ rest) = .ok (i, rest) := by
  have hw : decode (leWord (leBytes 4 w)) = .ok i := by rw [Machine.leWord_leBytes, h]
  simp only [leBytes] at hw
  simp only [leBytes, List.cons_append, List.nil_append, decodeBytes, hw]

/-- Settles O2: the four bytes spell the canonical word. -/
theorem decodeOfEncodedBytes : Obligations.DecodeOfEncodedBytes :=
  fun i rest hwf => decodeBytes_leBytes (decodeOfEncode i hwf) rest

end Sys2Proof
end

section
/-! SUPPORT. What an answer of the decoder says of the word, for each minor map and then for `decode`: the operation
fields name the instruction, so the instruction's canonical word is the format's word of the same fields. -/

namespace Sys2Proof

variable {f7 : BitVec 7} {f3 : BitVec 3} {rd rs1 rs2 : RegIdx} {imm : BitVec 12} {shamt : BitVec 5} {off : BitVec 13}
  {w : Word} {i : Instr}

/-- Under SYSTEM every word is ECALL (R90, R197). -/
theorem decode_system (hop : opcodeOf w = 0b1110011#7) : decode w = .ok .ecall := by simp [decode, hop, Opcode.ofBits]

theorem encode_of_decodeOp (h : decodeOp f7 f3 rd rs1 rs2 = .ok i) : encode i = rWord f7 rs2 rs1 f3 rd .op := by
  unfold decodeOp at h
  split at h <;> cases h <;> rfl

theorem encode_of_decodeLoad (h : decodeLoad f3 rd rs1 imm = .ok i) : encode i = iWord imm rs1 f3 rd .load := by
  unfold decodeLoad at h
  split at h <;> cases h <;> rfl

theorem encode_of_decodeStore (h : decodeStore f3 rs1 rs2 imm = .ok i) : encode i = sWord imm rs2 rs1 f3 := by
  unfold decodeStore at h
  split at h <;> cases h <;> rfl

theorem encode_of_decodeBranch (h : decodeBranch f3 rs1 rs2 off = .ok i) : encode i = bWord off rs2 rs1 f3 := by
  unfold decodeBranch at h
  split at h <;> cases h <;> rfl

/-- The decoder's last case under OP-IMM is the one selector left, `101`. -/
theorem funct3_eq_five : ∀ f3 : BitVec 3, f3 ≠ 0#3 → f3 ≠ 2#3 → f3 ≠ 3#3 → f3 ≠ 4#3 → f3 ≠ 6#3 → f3 ≠ 7#3 → f3 ≠ 1#3 →
    f3 = 5#3 := by
  intros
  bv_omega

/-- Under OP-IMM the word is assembled with an immediate or with a shift type and count (R73, R83). -/
theorem encode_of_decodeOpImm (h : decodeOpImm f7 f3 rd rs1 imm shamt = .ok i) :
    encode i = iWord imm rs1 f3 rd .opImm ∨ encode i = shiftWord f7 shamt rs1 f3 rd := by
  unfold decodeOpImm at h
  split at h
  case h_7 =>
    split at h <;> cases h
    subst f7
    exact .inr rfl
  case h_8 h0 h2 h3 h4 h6 h7 h1 =>
    obtain rfl := funct3_eq_five f3 h0 h2 h3 h4 h6 h7 h1
    split at h
    · cases h
      subst f7
      exact .inr rfl
    split at h <;> cases h
    subst f7
    exact .inr rfl
  all_goals cases h; exact .inl rfl

/-- Outside JALR and SYSTEM a decodable word is the canonical word of its instruction. -/
theorem encode_of_decode (h : decode w = .ok i) (hjalr : opcodeOf w ≠ 0b1100111#7) (hsys : opcodeOf w ≠ 0b1110011#7) :
    encode i = w := by
  unfold decode at h
  split at h <;> rename_i ho
  case h_1 => exact (encode_of_decodeOp h).trans (rWord_fields (bits_of_ofBits ho))
  case h_2 => exact (encode_of_decodeLoad h).trans (iWord_fields (bits_of_ofBits ho))
  case h_3 =>
    rcases encode_of_decodeOpImm h with he | he
    · exact he.trans (iWord_fields (bits_of_ofBits ho))
    · exact he.trans (shiftWord_fields (bits_of_ofBits ho))
  case h_4 => exact absurd (bits_of_ofBits ho) hjalr
  case h_5 => exact absurd (bits_of_ofBits ho) hsys
  case h_6 => exact (encode_of_decodeStore h).trans (sWord_fields (bits_of_ofBits ho))
  case h_7 => exact (encode_of_decodeBranch h).trans (bWord_fields (bits_of_ofBits ho))
  case h_8 => cases h; exact jWord_fields (bits_of_ofBits ho)
  case h_9 => cases h; exact uWord_fields (bits_of_ofBits ho)
  case h_10 => cases h; exact uWord_fields (bits_of_ofBits ho)
  case h_11 => cases h

/-- What a decodable word is: a JALR word of any funct3, a SYSTEM word, or the canonical word of its instruction
(R90). -/
theorem decode_cases (h : decode w = .ok i) :
    (opcodeOf w = 0b1100111#7 ∧ i = .jalr (rdOf w) (rs1Of w) (iField w)) ∨
    (opcodeOf w = 0b1110011#7 ∧ i = .ecall) ∨ encode i = w := by
  by_cases hjalr : opcodeOf w = 0b1100111#7
  · exact .inl ⟨hjalr, Except.ok.inj (h.symm.trans (decode_jalr hjalr))⟩
  by_cases hsys : opcodeOf w = 0b1110011#7
  · exact .inr (.inl ⟨hsys, Except.ok.inj (h.symm.trans (decode_system hsys))⟩)
  · exact .inr (.inr (encode_of_decode h hjalr hsys))

/-- Clearing the selector field of an I word (R73). -/
theorem iWord_clear_funct3 (imm : BitVec 12) (rs1 : RegIdx) (f3 : BitVec 3) (rd : RegIdx) (o : Opcode) :
    iWord imm rs1 f3 rd o &&& 0xFFFF8FFF#32 = iWord imm rs1 0#3 rd o := by
  apply BitVec.eq_of_getLsbD_eq
  intro i hi
  simp only [iWord, BitVec.getLsbD_append, BitVec.getLsbD_and]
  interval_cases i <;> simp

/-- The decoder answers a branch only with the offset it was given. -/
theorem wf_of_decodeBranch (hoff : offBOk off = true) (h : decodeBranch f3 rs1 rs2 off = .ok i) : i.wf = true := by
  unfold decodeBranch at h
  split at h <;> cases h <;> exact hoff

end Sys2Proof
end

section
/-! SUPPORT. Decoding, then encoding, and the terms the decoder answers (sections 2, 3 and 6 of 30_encoding.md). -/

namespace Sys2Proof

/-- Settles O4: JALR and SYSTEM words have one instruction each, and every other word is the one its fields give. -/
theorem encodeOfDecode : Obligations.EncodeOfDecode := by
  intro w i h
  refine ⟨fun hop => ?_, fun hop => ?_, encode_of_decode h⟩
  · obtain rfl := Except.ok.inj ((decode_jalr hop).symm.trans h)
    calc encode (.jalr (rdOf w) (rs1Of w) (iField w))
        = iWord (iField w) (rs1Of w) (funct3Of w) (rdOf w) .jalr &&& 0xFFFF8FFF#32 := (iWord_clear_funct3 ..).symm
      _ = w &&& 0xFFFF8FFF#32 := by rw [iWord_fields (o := .jalr) hop]
  · obtain rfl := Except.ok.inj ((decode_system hop).symm.trans h)
    decide

/-- Settles O3: the terms that have an offset are those of BRANCH and JAL words, and carry the offset read from the
word. -/
theorem decodedInstructionsAreWellFormed : Obligations.DecodedInstructionsAreWellFormed := by
  intro w i h
  rcases decode_cases h with ⟨_, rfl⟩ | ⟨_, rfl⟩ | rfl
  · rfl
  · rfl
  cases i
  case beq | bne | blt | bge | bltu | bgeu =>
    exact wf_of_decodeBranch (offBOk_bField _) ((decode_branch (opcodeOf_bWord ..)).symm.trans h)
  case jal rd off =>
    have hoff := Except.ok.inj ((decode_jal (opcodeOf_jWord off rd)).symm.trans h)
    rw [← hoff]
    exact offJOk_jField _
  all_goals rfl

end Sys2Proof
end

section
/-! SUPPORT. Each update of the state keeps the invariant (R4, R21, R25, R27, R28): the rules that the step's proof is
assembled from. -/

namespace Sys2Proof.Machine

variable {s : State}

/-- A fault taken names its cause (R209). -/
theorem raise_inv (h : s.Inv) {f : Raised} (hf : f.cause ≠ .none) : (s.raise f).Inv := by
  obtain ⟨hcfg, hpc, hmem, -, hcell⟩ := h
  exact ⟨hcfg, hpc, hmem, ⟨fun _ => hf, fun hs => absurd rfl hs⟩, hcell⟩

theorem writeReg_inv (h : s.Inv) (rd : RegIdx) (v : Word) : (s.writeReg rd v).Inv := by
  simpa [State.Inv, State.memOk, State.haltOk] using h

/-- A transfer to an aligned address (R25). -/
theorem setPc_inv (h : s.Inv) {p : Word} (hp : p.toNat % 4 = 0) : (s.setPc p).Inv := by
  obtain ⟨hcfg, -, hrest⟩ := h
  exact ⟨hcfg, hp, hrest⟩

/-- The sequential update, also where it wraps (R26). -/
theorem advance_inv (h : s.Inv) : s.advance.Inv := by
  have ⟨_, hpc, _⟩ := h
  exact setPc_inv h (add_four_aligned hpc)

theorem emit_inv (h : s.Inv) (bs : List Byte) : (s.emit bs).Inv := h

/-- The exit of a machine that is not faulted leaves it so (R212). -/
theorem haltExit_inv (h : s.Inv) (hs : s.status ≠ .faulted) : s.haltExit.Inv := by
  obtain ⟨hcfg, hpc, hmem, ⟨-, hhalt⟩, hcell⟩ := h
  exact ⟨hcfg, hpc, hmem, ⟨fun hf => by simp at hf, fun _ => hhalt hs⟩, hcell⟩

/-- Bytes written below the bound (R44). -/
theorem writeBytes_inv (h : s.Inv) {a : Nat} {bs : List Byte} (hb : a + bs.length ≤ s.cfg.memSize) :
    State.Inv { s with mem := writeBytes a bs s.mem } := by
  obtain ⟨hcfg, hpc, ⟨hwf, hbound⟩, hhalt, hcell⟩ := h
  refine ⟨hcfg, hpc, ⟨writeBytes_wf hwf a bs, fun c hc => ?_⟩, hhalt, hcell⟩
  rcases writeBytes_addr hc with ⟨-, hlt⟩ | hold
  · exact Nat.lt_of_lt_of_le hlt hb
  · exact hbound c hold

/-- Every instruction keeps the invariant from a RUNNING state. -/
theorem exec_inv {i : Instr} {t : State} (h : s.Inv) (hrun : s.status = .running) (he : exec i s = .next t) :
    t.Inv := by
  rcases exec_next he with ⟨f, hf, rfl⟩ | ⟨rd, v, -, rfl⟩ | ⟨rd, p, -, hp, rfl⟩ | ⟨p, hp, rfl⟩ |
    ⟨w, rs1, rs2, imm, -, hv, rfl⟩ | ⟨-, bs, rfl⟩ | ⟨-, -, rfl⟩
  · exact raise_inv h hf
  · exact advance_inv (writeReg_inv h rd v)
  · exact setPc_inv (writeReg_inv h rd _) hp
  · exact setPc_inv h hp
  · obtain ⟨-, hbound, -⟩ := validAccess_iff.mp hv
    exact advance_inv (writeBytes_inv h (by rwa [leBytes_length]))
  · exact advance_inv (emit_inv h bs)
  · exact haltExit_inv (emit_inv h _) (by simp [hrun])

end Sys2Proof.Machine
end

section
/-! SUPPORT. The invariant: every step keeps it, reset meets it, so every reachable state does (10_state.md). -/

namespace Sys2Proof.Machine

/-- Settles O54: a step takes a fault or runs one instruction, and both keep the invariant. -/
theorem stepKeepsTheInvariant : Obligations.StepKeepsTheInvariant := by
  intro s t h hst
  obtain ⟨hrun, ⟨-, rfl⟩ | ⟨w, e, -, -, rfl⟩ | ⟨w, i, -, -, he⟩⟩ := step_next hst
  · exact raise_inv h (by simp)
  · exact raise_inv h (by simp)
  · exact exec_inv h hrun he

/-- Settles O55: memory is MEM_INIT, which R4 asks to be in order, and the pc, the halt status and cell 0 are zero. -/
theorem resetMeetsTheInvariant : Obligations.ResetMeetsTheInvariant := by
  intro c hc
  have hmem : Memory.wf c.memInit ∧ ∀ cell ∈ c.memInit, cell.1 < c.memSize := by
    obtain ⟨-, -, -, -, -, -, hwf, hbound⟩ := hc
    exact ⟨hwf, hbound⟩
  exact ⟨hc, rfl, hmem, ⟨fun hs => (nomatch hs), fun _ => ⟨rfl, rfl⟩⟩, rfl⟩

/-- No instruction writes the parameters. -/
theorem exec_cfg {i : Instr} {s t : State} (he : exec i s = .next t) : t.cfg = s.cfg := by
  rcases exec_next he with ⟨f, -, rfl⟩ | ⟨rd, v, -, rfl⟩ | ⟨rd, p, -, -, rfl⟩ | ⟨p, -, rfl⟩ |
    ⟨w, rs1, rs2, imm, -, -, rfl⟩ | ⟨-, bs, rfl⟩ | ⟨-, -, rfl⟩
  all_goals simp

/-- Settles O53: a step takes a fault or runs one instruction, and neither writes the parameters. -/
theorem noStepChangesTheParameters : Obligations.NoStepChangesTheParameters := by
  intro s t hst
  obtain ⟨-, ⟨-, rfl⟩ | ⟨w, e, -, -, rfl⟩ | ⟨w, i, -, -, he⟩⟩ := step_next hst
  · rfl
  · rfl
  · exact exec_cfg he

/-- Settles O56: by induction on the run; a reset starts again under the parameters the machine still holds. -/
theorem reachableStatesMeetTheInvariant : Obligations.ReachableStatesMeetTheInvariant := by
  intro c s hc hr
  induction hr with
  | reset => exact ⟨resetMeetsTheInvariant c hc, rfl⟩
  | step _ hst ih =>
    obtain ⟨hinv, hcfg⟩ := ih
    exact ⟨stepKeepsTheInvariant _ _ hinv hst, (noStepChangesTheParameters _ _ hst).trans hcfg⟩
  | resetAgain _ ih =>
    obtain ⟨-, rfl⟩ := ih
    exact ⟨resetMeetsTheInvariant _ hc, rfl⟩

/-- Settles O57: reset builds the state from the parameters alone, whatever it is applied to. -/
theorem resetPutsEveryPieceOfState : Obligations.ResetPutsEveryPieceOfState := by
  intro s
  refine ⟨fun r => ?_, rfl, fun a => rfl, rfl, rfl, rfl, rfl, rfl⟩
  simp [State.readReg, State.applyReset, State.resetWith]

end Sys2Proof.Machine
end

section
/-! SUPPORT. The opcode table and the decoder: which fields a row's mask keeps, and that they alone decide whether a
word is an instruction (30_encoding.md sections 5 and 6). -/

namespace Sys2Proof

open Laws.MatchesTable in
/-- The canonical word of every instruction is under the instruction's row, one of the 42. -/
theorem tableRow_matches_encode : ∀ i : Instr, i.tableRow ∈ tableRows ∧ i.tableRow.Matches (encode i)
  | .add .. => add ..
  | .sub .. => sub ..
  | .sll .. => sll ..
  | .slt .. => slt ..
  | .sltu .. => sltu ..
  | .xor .. => xor ..
  | .srl .. => srl ..
  | .sra .. => sra ..
  | .or .. => or ..
  | .and .. => and ..
  | .mul .. => mul ..
  | .mulh .. => mulh ..
  | .div .. => div ..
  | .rem .. => rem ..
  | .addi .. => addi ..
  | .slti .. => slti ..
  | .sltiu .. => sltiu ..
  | .xori .. => xori ..
  | .ori .. => ori ..
  | .andi .. => andi ..
  | .slli .. => slli ..
  | .srli .. => srli ..
  | .srai .. => srai ..
  | .lb .. => lb ..
  | .lh .. => lh ..
  | .lw .. => lw ..
  | .lbu .. => lbu ..
  | .lhu .. => lhu ..
  | .sb .. => sb ..
  | .sh .. => sh ..
  | .sw .. => sw ..
  | .beq .. => beq ..
  | .bne .. => bne ..
  | .blt .. => blt ..
  | .bge .. => bge ..
  | .bltu .. => bltu ..
  | .bgeu .. => bgeu ..
  | .jal .. => jal ..
  | .jalr .. => jalr ..
  | .lui .. => lui ..
  | .auipc .. => auipc ..
  | .ecall => ecall

/-- The mask of a row without operation fields keeps the opcode. -/
theorem and_opcode_mask (w : Word) : w &&& 0x0000007F#32 = (opcodeOf w).setWidth 32 := by
  apply BitVec.eq_of_getLsbD_eq
  intro i hi
  simp only [opcodeOf, BitVec.getLsbD_and, BitVec.getLsbD_setWidth, BitVec.getLsbD_extractLsb']
  interval_cases i <;> simp

theorem opcodeOf_and (w m : Word) : opcodeOf (w &&& m) = opcodeOf w &&& opcodeOf m := BitVec.extractLsb'_and

theorem funct3Of_and (w m : Word) : funct3Of (w &&& m) = funct3Of w &&& funct3Of m := BitVec.extractLsb'_and

theorem funct7Of_and (w m : Word) : funct7Of (w &&& m) = funct7Of w &&& funct7Of m := BitVec.extractLsb'_and

end Sys2Proof
end

section
/-! SUPPORT. Whether a word is an instruction depends on its operation fields alone: on the opcode, on funct3 unless the
opcode has one instruction only, and on funct7 under OP and for the shifts of OP-IMM (R85 to R88, R90). -/

namespace Sys2Proof

theorem isOk_iff {ε α : Type} {x : Except ε α} : x.isOk = true ↔ ∃ a, x = .ok a := by
  cases x with
  | ok a => exact ⟨fun _ => ⟨a, rfl⟩, fun _ => rfl⟩
  | error e => exact ⟨fun h => (nomatch h), fun ⟨_, h⟩ => (nomatch h)⟩

section
variable {f7 f7' : BitVec 7} (f3 : BitVec 3) (rd rd' rs1 rs1' rs2 rs2' : RegIdx) (imm imm' : BitVec 12)
  (off off' : BitVec 13) (shamt shamt' : BitVec 5)

theorem isOk_decodeOp : (decodeOp f7 f3 rd rs1 rs2).isOk = (decodeOp f7 f3 rd' rs1' rs2').isOk := by
  unfold decodeOp
  split <;> rfl

theorem isOk_decodeLoad : (decodeLoad f3 rd rs1 imm).isOk = (decodeLoad f3 rd' rs1' imm').isOk := by
  unfold decodeLoad
  split <;> rfl

theorem isOk_decodeStore : (decodeStore f3 rs1 rs2 imm).isOk = (decodeStore f3 rs1' rs2' imm').isOk := by
  unfold decodeStore
  split <;> rfl

theorem isOk_decodeBranch : (decodeBranch f3 rs1 rs2 off).isOk = (decodeBranch f3 rs1' rs2' off').isOk := by
  unfold decodeBranch
  split <;> rfl

theorem isOk_decodeOpImm (h : f3 ∈ [0b001#3, 0b101#3] → f7 = f7') :
    (decodeOpImm f7 f3 rd rs1 imm shamt).isOk = (decodeOpImm f7' f3 rd' rs1' imm' shamt').isOk := by
  by_cases hshift : f3 ∈ [0b001#3, 0b101#3]
  · obtain rfl := h hshift
    unfold decodeOpImm
    split <;> (repeat' split) <;> rfl
  · unfold decodeOpImm
    split
    case h_7 => simp at hshift
    case h_8 h0 h2 h3 h4 h6 h7 h1 =>
      obtain rfl := funct3_eq_five f3 h0 h2 h3 h4 h6 h7 h1
      simp at hshift
    all_goals rfl

end

/-- The opcodes that have one instruction only (R90). -/
def soleOpcodes : List (BitVec 7) := [0b1101111#7, 0b1100111#7, 0b0110111#7, 0b0010111#7, 0b1110011#7]

/-- The operation fields among which funct7 is examined: opcode OP, and the shift selectors under OP-IMM. -/
def ExaminesFunct7 (op : BitVec 7) (f3 : BitVec 3) : Prop :=
  op = 0b0110011#7 ∨ op = 0b0010011#7 ∧ f3 ∈ [0b001#3, 0b101#3]

/-- Two words with the same examined fields are both instructions or both none. -/
theorem isOk_decode_congr {w v : Word} (hop : opcodeOf w = opcodeOf v)
    (h3 : opcodeOf v ∉ soleOpcodes → funct3Of w = funct3Of v)
    (h7 : ExaminesFunct7 (opcodeOf v) (funct3Of v) → funct7Of w = funct7Of v) :
    (decode w).isOk = (decode v).isOk := by
  have hf3 {o : Opcode} (ho : Opcode.ofBits (opcodeOf v) = some o) (hs : o.bits ∉ soleOpcodes) :
      funct3Of w = funct3Of v := h3 (bits_of_ofBits ho ▸ hs)
  unfold decode
  rw [hop]
  split <;> rename_i ho
  case h_1 => rw [hf3 ho (by decide), h7 (.inl (bits_of_ofBits ho))]; exact isOk_decodeOp ..
  case h_2 => rw [hf3 ho (by decide)]; exact isOk_decodeLoad ..
  case h_3 =>
    rw [hf3 ho (by decide)]
    exact isOk_decodeOpImm _ _ _ _ _ _ _ _ _ fun hs => h7 (.inr ⟨bits_of_ofBits ho, hs⟩)
  case h_6 => rw [hf3 ho (by decide)]; exact isOk_decodeStore ..
  case h_7 => rw [hf3 ho (by decide)]; exact isOk_decodeBranch ..
  all_goals rfl

/-- Each row of the table is an instruction, and its mask keeps the fields examined under its opcode. -/
theorem tableRows_keep_examined_fields :
    ∀ row ∈ tableRows, (decode row.value).isOk = true ∧ opcodeOf row.mask = BitVec.allOnes 7 ∧
      (opcodeOf row.value ∉ soleOpcodes → funct3Of row.mask = BitVec.allOnes 3) ∧
      (ExaminesFunct7 (opcodeOf row.value) (funct3Of row.value) → funct7Of row.mask = BitVec.allOnes 7) := by
  unfold ExaminesFunct7
  decide

end Sys2Proof
end

section
/-! SUPPORT. Which words decode (30_encoding.md sections 5 and 6). -/

namespace Sys2Proof

/-- Settles O5: the canonical word is under its row, and JALR and SYSTEM rows ask for the opcode only; the mask of a row
keeps all that the decoder examines under the row's opcode. -/
theorem decodableExactlyWhenATableRowMatches : Obligations.DecodableExactlyWhenATableRowMatches := by
  intro w
  constructor
  · rintro ⟨i, h⟩
    obtain ⟨hmem, hcanonical⟩ := tableRow_matches_encode i
    refine ⟨i.tableRow, hmem, ?_⟩
    rcases decode_cases h with ⟨hop, rfl⟩ | ⟨hop, rfl⟩ | rfl
    · exact (and_opcode_mask w).trans (by rw [hop]; rfl)
    · exact (and_opcode_mask w).trans (by rw [hop]; rfl)
    · exact hcanonical
  · rintro ⟨row, hrow, hmatch⟩
    obtain ⟨hvalue, hop, h3, h7⟩ := tableRows_keep_examined_fields row hrow
    rw [← isOk_iff]
    refine (isOk_decode_congr ?_ (fun hs => ?_) (fun he => ?_)).trans hvalue
    · rw [← hmatch, opcodeOf_and, hop, BitVec.and_allOnes]
    · rw [← hmatch, funct3Of_and, h3 hs, BitVec.and_allOnes]
    · rw [← hmatch, funct7Of_and, h7 he, BitVec.and_allOnes]

end Sys2Proof
end

section
/-! SUPPORT. The immediates: the one Decode's record holds for a word of each format (R84), and their signed readings
(R78 to R82). -/

namespace Sys2Proof.Machine

variable (f3 : BitVec 3) (rd rs1 rs2 : RegIdx)

theorem immOf_jalr {w : Word} (hop : opcodeOf w = 0b1100111#7) : immOf w = sext (iField w) := by
  simp [immOf, formatOf, hop, Opcode.ofBits, Opcode.format]

theorem immOf_iWord {o : Opcode} (ho : o.format = .I) (imm : BitVec 12) :
    immOf (iWord imm rs1 f3 rd o) = sext imm := by simp [immOf, formatOf, ho]

theorem immOf_sWord (imm : BitVec 12) : immOf (sWord imm rs2 rs1 f3) = sext imm := by
  simp [immOf, formatOf, Opcode.format]

theorem immOf_bWord {off : BitVec 13} (h : offBOk off = true) : immOf (bWord off rs2 rs1 f3) = sext off := by
  simp [immOf, formatOf, Opcode.format, bField_bWord _ _ _ _ h]

theorem immOf_uWord {o : Opcode} (ho : o.format = .U) (imm20 : BitVec 20) :
    immOf (uWord imm20 rd o) = upperImm imm20 := by simp [immOf, formatOf, ho]

theorem immOf_jWord {off : BitVec 21} (h : offJOk off = true) : immOf (jWord off rd) = sext off := by
  simp [immOf, formatOf, Opcode.format, jField_jWord _ _ h]

/-- The record of a canonical word holds the immediate of the instruction. -/
theorem immOf_encode {i : Instr} {v : Word} (hwf : i.wf = true) (hv : finishedImmediate i = some v) :
    immOf (encode i) = v := by
  cases i
  case addi | slti | sltiu | xori | ori | andi | lb | lh | lw | lbu | lhu | jalr =>
    cases hv; exact immOf_iWord _ _ _ rfl _
  case sb | sh | sw => cases hv; exact immOf_sWord ..
  case beq | bne | blt | bge | bltu | bgeu => cases hv; exact immOf_bWord _ _ _ hwf
  case lui | auipc => cases hv; exact immOf_uWord _ rfl _
  case jal => cases hv; exact immOf_jWord _ hwf
  all_goals cases hv

/-- The signed reading of a field below 32 bits lies in the field's range. -/
theorem toInt_range {n : Nat} (x : BitVec (n + 1)) : -2 ^ n ≤ x.toInt ∧ x.toInt ≤ 2 ^ n - 1 :=
  ⟨BitVec.le_toInt x, Int.le_sub_one_of_lt BitVec.toInt_lt⟩

/-- A field with a bit 0 that is not stored reads as twice the stored field (R80, R82). -/
theorem toInt_append_zero_bit {n : Nat} (x : BitVec n) : (x ++ 0#1).toInt = 2 * x.toInt := by
  rw [BitVec.toInt_append_zero]
  omega

/-- The upper immediate is the word with its low 12 bits cleared (R81). -/
theorem upperImm_uField (w : Word) : upperImm (uField w) = w &&& 0xFFFFF000#32 := by
  apply BitVec.eq_of_getLsbD_eq
  intro i hi
  simp only [upperImm, uField, BitVec.getLsbD_append, BitVec.getLsbD_and, BitVec.getLsbD_extractLsb']
  interval_cases i <;> simp

end Sys2Proof.Machine
end

section
/-! SUPPORT. The immediates of the decoded record and their readings (sections 3 and 4 of 30_encoding.md), and the words
of the worked examples. -/

namespace Sys2Proof.Machine

/-- Settles O7: the record's immediate is read by the opcode's format, which is the one the instruction is assembled
in. -/
theorem recordHoldsTheFinishedImmediate : Obligations.RecordHoldsTheFinishedImmediate := by
  intro w i v h hv
  change immOf w = v
  rcases decode_cases h with ⟨hop, rfl⟩ | ⟨-, rfl⟩ | rfl
  · cases hv
    exact immOf_jalr hop
  · cases hv
  · exact immOf_encode (decodedInstructionsAreWellFormed _ i h) hv

/-- Settles O8: sign extension keeps the field's signed reading, which its width bounds. -/
theorem immediateReadings : Obligations.ImmediateReadings := by
  intro w
  refine ⟨?_, ?_, ?_, upperImm_uField w, ?_⟩
  · rw [s32_sext _ (by decide)]
    exact ⟨rfl, toInt_range (iField w)⟩
  · rw [s32_sext _ (by decide)]
    exact ⟨rfl, toInt_range (sField w)⟩
  · have hread : (bField w).toInt = 2 * _ := toInt_append_zero_bit _
    rw [s32_sext _ (by decide), hread]
    have := toInt_range (n := 11) (w.extractLsb' 31 1 ++ w.extractLsb' 7 1 ++ w.extractLsb' 25 6 ++ w.extractLsb' 8 4)
    exact ⟨rfl, by omega, by omega⟩
  · have hread : (jField w).toInt = 2 * _ := toInt_append_zero_bit _
    rw [s32_sext _ (by decide), hread]
    have := toInt_range (n := 19)
      (w.extractLsb' 31 1 ++ w.extractLsb' 12 8 ++ w.extractLsb' 20 1 ++ w.extractLsb' 21 10)
    exact ⟨rfl, by omega, by omega⟩

/-- Settles O6: eleven closed words. -/
theorem wordsOfTheSpecDecode : Obligations.WordsOfTheSpecDecode := by
  unfold Obligations.WordsOfTheSpecDecode
  decide

end Sys2Proof.Machine
end

section
/-! SUPPORT. The step for each answer of the fetch and the decoder (R100 to R103), and that every form of instruction
answers a next state (R8). -/

namespace Sys2Proof.Machine

variable {s : State}

/-- A fetch past the bound raises InvalidRead(pc) (R101). -/
theorem step_of_fetch_outside (hr : s.status = .running) (hb : s.cfg.memSize < s.pc.toNat + 4) :
    step s = s.fail ⟨.invalidRead, s.pc⟩ := by
  rcases fetch_cases s with ⟨hin, -⟩ | ⟨-, hf⟩
  · omega
  · rw [step, if_pos hr, hf]

/-- A fetched word that is an instruction executes (R102). -/
theorem step_of_decode_ok {w : Word} {i : Instr} (hr : s.status = .running) (hw : FetchedWord s w)
    (hi : decode w = .ok i) : step s = exec i s := by
  rw [step, if_pos hr, fetch_eq_ok.mpr hw]
  dsimp only
  rw [hi]

/-- A word whose bytes were written at the pc, in a canonical memory, is the word fetched (R48, R57). -/
theorem fetchedWord_of_written {m : Memory} {w : Word} (hm : Memory.wf m)
    (hmem : s.mem = writeBytes s.pc.toNat (leBytes 4 w) m) (hb : s.pc.toNat + 4 ≤ s.cfg.memSize) :
    FetchedWord s w := by
  have hbytes : readBytes s.mem s.pc.toNat 4 = leBytes 4 w := by
    rw [hmem]
    simpa using readBytes_writeBytes hm s.pc.toNat (leBytes 4 w)
  rcases fetch_cases s with ⟨-, hf⟩ | ⟨hout, -⟩
  · rw [← fetch_eq_ok, hf, hbytes, leWord_leBytes]
  · omega

/-- The word of a table row of 32 bits is the row's number. -/
theorem tableWord_toNat (w : Word) : tableWord 32 w.toNat = w := by
  rw [tableWord, Nat.mod_eq_of_lt w.isLt, BitVec.ofNat_toNat, BitVec.setWidth_eq]

theorem load_total (w : Width) (ext : Word → Word) (rd rs1 : RegIdx) (imm : BitVec 12) (s : State) :
    ∃ t, load w ext rd rs1 imm s = .next t := by
  unfold load
  split
  · exact ⟨_, rfl⟩
  · exact ⟨_, rfl⟩

theorem store_total (w : Width) (rs1 rs2 : RegIdx) (imm : BitVec 12) (s : State) :
    ∃ t, store w rs1 rs2 imm s = .next t := by
  unfold store
  split
  · exact ⟨_, rfl⟩
  · exact ⟨_, rfl⟩

theorem transfer_total (p : Word) (s : State) : ∃ t, transfer p s = .next t := by
  by_cases h : p.toNat % 4 = 0
  · exact (transfer_completes h).imp fun _ ht => ht.1
  · exact (transfer_records h).imp fun _ ht => ht.1

theorem jump_total (rd : RegIdx) (p : Word) (s : State) : ∃ t, jump rd p s = .next t := by
  by_cases h : p.toNat % 4 = 0
  · exact (jump_completes h).imp fun _ ht => ht.1
  · exact (jump_records h).imp fun _ ht => ht.1

theorem ecall_total (s : State) : ∃ t, execEcall s = .next t := by
  unfold execEcall
  (repeat' split) <;> exact ⟨_, rfl⟩

/-- Every instruction answers a next state in every state (R8). -/
theorem exec_total (i : Instr) (s : State) : ∃ t, exec i s = .next t := by
  cases i
  case lb | lh | lw | lbu | lhu => exact load_total ..
  case sb | sh | sw => exact store_total ..
  case beq | bne | blt | bge | bltu | bgeu => exact transfer_total ..
  case jal | jalr => exact jump_total ..
  case ecall => exact ecall_total s
  all_goals exact ⟨_, rfl⟩

/-- Every RUNNING machine has a step (R8, R100). -/
theorem step_total (hr : s.status = .running) : ∃ t, step s = .next t := by
  rcases fetch_cases s with ⟨-, hf⟩ | ⟨hb, -⟩
  · cases hd : decode (leWord (readBytes s.mem s.pc.toNat 4)) with
    | ok i =>
      rw [step_of_decode_ok hr (fetch_eq_ok.mp hf) hd]
      exact exec_total i s
    | error e => exact ⟨_, step_of_decode_error hr (fetch_eq_ok.mp hf) hd⟩
  · exact ⟨_, step_of_fetch_outside hr hb⟩

end Sys2Proof.Machine
end

section
/-! SUPPORT. The words of reserved selectors (R140, R180): the minor maps have no row for them. -/

namespace Sys2Proof

variable {f7 : BitVec 7} {f3 : BitVec 3}

/-- R89 (c), R140: a left shift has one shift type. -/
theorem decodeOpImm_of_reserved_left (rd rs1 : RegIdx) (imm : BitVec 12) (shamt : BitVec 5) (h : f7 ≠ 0b0000000#7) :
    decodeOpImm f7 0b001#3 rd rs1 imm shamt = .error .reservedShift := if_neg h

/-- R89 (c), R140: a right shift has two. -/
theorem decodeOpImm_of_reserved_right (rd rs1 : RegIdx) (imm : BitVec 12) (shamt : BitVec 5)
    (h : f7 ∉ [0b0000000#7, 0b0100000#7]) : decodeOpImm f7 0b101#3 rd rs1 imm shamt = .error .reservedShift := by
  obtain ⟨hlogical, harith⟩ : f7 ≠ 0b0000000#7 ∧ f7 ≠ 0b0100000#7 := by simpa using h
  exact (if_neg hlogical).trans (if_neg harith)

/-- R89 (d), R180. -/
theorem decodeLoad_of_reserved (rd rs1 : RegIdx) (imm : BitVec 12) (h : f3 ∈ [0b011#3, 0b110#3, 0b111#3]) :
    decodeLoad f3 rd rs1 imm = .error .unrecognisedLoadWidth := by
  unfold decodeLoad
  split
  case h_6 => rfl
  all_goals exact absurd h (by decide)

/-- R89 (d), R180. -/
theorem decodeStore_of_reserved (rs1 rs2 : RegIdx) (imm : BitVec 12)
    (h : f3 ∈ [0b011#3, 0b100#3, 0b101#3, 0b110#3, 0b111#3]) :
    decodeStore f3 rs1 rs2 imm = .error .unrecognisedStoreWidth := by
  unfold decodeStore
  split
  case h_4 => rfl
  all_goals exact absurd h (by decide)

end Sys2Proof
end

section
/-! SUPPORT. The step (40_dispatch.md) and the words it refuses (42_alu_immediate.md section 3, 44_load_store.md
section 1). -/

namespace Sys2Proof.Machine

/-- Settles O9: fetch and decoder answer, and nothing is left but exec. -/
theorem stepRunsTheDecodedInstruction : Obligations.StepRunsTheDecodedInstruction :=
  fun _ _ _ => step_of_decode_ok

/-- Settles O10: the fetch itself raises the fault. -/
theorem fetchOutsideMemoryFaults : Obligations.FetchOutsideMemoryFaults := by
  intro s hr hb
  rw [step_of_fetch_outside hr hb]
  exact fail_records s _ _

/-- Settles O46: the decoder answers ECALL for every SYSTEM word. -/
theorem everySystemWordIsASyscall : Obligations.EverySystemWordIsASyscall :=
  fun _ _ hr hw hop => step_of_decode_ok hr hw (decode_system hop)

/-- Settles O11: the word placed is the one fetched, and it decodes to the instruction it encodes. -/
theorem placedInstructionRunsNext : Obligations.PlacedInstructionRunsNext := by
  intro s i hr hm hb hwf
  have hw : FetchedWord (s.withFetchWord 32 (encode i).toNat) (encode i) := by
    refine fetchedWord_of_written hm ?_ hb
    rw [State.withFetchWord, tableWord_toNat]
  exact step_of_decode_ok hr hw (decodeOfEncode i hwf)

/-- Settles O12: a step is total while RUNNING; `step` tests the status first; the end of a run is read off it. -/
theorem stepExistsExactlyWhenRunning : Obligations.StepExistsExactlyWhenRunning := by
  refine fun s => ⟨step_total, fun hhalted => ?_, fun hf => ?_⟩
  · have hr : s.status ≠ .running := by
      rcases hhalted with h | h
      · simp [h]
      · simp [h]
    exact ⟨step_of_not_running hr, rfl⟩
  · refine ⟨by simp [hf], ?_⟩
    rw [State.runEnd, hf]

/-- Settles O14: each clause makes the decoder refuse the word, so no address is formed. -/
theorem reservedSelectorsFault : Obligations.ReservedSelectorsFault := by
  intro s w hr hw h
  obtain ⟨e, he⟩ : ∃ e, decode w = .error e := by
    rcases h with ⟨hop, h3, h7⟩ | ⟨hop, h3, h7⟩ | ⟨hop, h3⟩ | ⟨hop, h3⟩
    · exact ⟨_, (decode_opImm_of_funct3 hop h3).trans (decodeOpImm_of_reserved_left _ _ _ _ h7)⟩
    · exact ⟨_, (decode_opImm_of_funct3 hop h3).trans (decodeOpImm_of_reserved_right _ _ _ _ h7)⟩
    · exact ⟨_, (decode_load hop).trans (decodeLoad_of_reserved _ _ _ h3)⟩
    · exact ⟨_, (decode_store hop).trans (decodeStore_of_reserved _ _ _ h3)⟩
  rw [step_of_decode_error hr hw he]
  exact fail_records s _ _

/-- Settles O35: the store that does not fault leaves the word's bytes at the new pc, inside the bound. -/
theorem storedInstructionRunsNext : Obligations.StoredInstructionRunsNext := by
  intro s t rs1 rs2 imm i hm hst hr hea hi
  rcases store_next hst with ⟨hv, rfl⟩ | ⟨-, rfl⟩
  · obtain ⟨-, hb, -⟩ := validAccess_iff.mp hv
    rw [hea] at hb
    refine step_of_decode_ok hr (fetchedWord_of_written hm ?_ hb) hi
    rw [hea]
    rfl
  · simp at hr

end Sys2Proof.Machine
end

section
/-! SUPPORT. Reads of memory bit by bit, the reads inside a stored word (20_memory.md sections 2 to 4), and the values
that loads make of two and four bytes (R173, R174, R176). -/

namespace Sys2Proof.Machine

/-- Bit `i` of a little-endian value is bit `i mod 8` of its byte `i / 8`, and 0 above the bytes read (R43, R48). -/
theorem getLsbD_leWord_readBytes (m : Memory) (a n i : Nat) (hi : i < 32) :
    (leWord (readBytes m a n)).getLsbD i = (decide (i < 8 * n) && (readByte m (a + i / 8)).getLsbD (i % 8)) := by
  induction n generalizing a i with
  | zero => simp [readBytes, leWord]
  | succ n ih =>
    simp only [readBytes, leWord, BitVec.getLsbD_or, BitVec.getLsbD_shiftLeft, BitVec.getLsbD_setWidth]
    by_cases hlow : i < 8
    · have hbyte : i / 8 = 0 := by omega
      have hbit : i % 8 = i := by omega
      have hrange : i < 8 * (n + 1) := by omega
      simp [hi, hlow, hbyte, hbit, hrange]
    · have hbyte : a + 1 + (i - 8) / 8 = a + i / 8 := by omega
      have hbit : (i - 8) % 8 = i % 8 := by omega
      have hrange : i - 8 < 8 * n ↔ i < 8 * (n + 1) := by omega
      rw [ih _ _ (by omega), hbyte, hbit]
      simp [hi, hlow, hrange, BitVec.getLsbD_of_ge _ i (Nat.not_lt.mp hlow)]

/-- Byte `k` of the value read is the byte of memory at `k` (R43). -/
theorem leWord_readBytes_byte_at (m : Memory) (a : Nat) {n k : Nat} (hk : k < n) (hn : n ≤ 4) :
    (leWord (readBytes m a n)).extractLsb' (8 * k) 8 = readByte m (a + k) := by
  apply BitVec.eq_of_getLsbD_eq
  intro i hi
  have hbyte : (8 * k + i) / 8 = k := by omega
  have hbit : (8 * k + i) % 8 = i := by omega
  have hrange : 8 * k + i < 8 * n := by omega
  rw [BitVec.getLsbD_extractLsb', getLsbD_leWord_readBytes _ _ _ _ (by omega), hbyte, hbit]
  simp [hi, hrange]

/-- The value read is zero above the bytes read (R43). -/
theorem leWord_readBytes_above (m : Memory) (a n : Nat) {j : Nat} (hj : 8 * n ≤ j) :
    (leWord (readBytes m a n)).getLsbD j = false := by
  by_cases hword : j < 32
  · simp [getLsbD_leWord_readBytes _ _ _ _ hword, Nat.not_lt.mpr hj]
  · exact BitVec.getLsbD_of_ge _ j (Nat.not_lt.mp hword)

/-- A read of `n` bytes at offset `k` of a word in memory gives those bits of the word (R49). -/
theorem leWord_readBytes_inside {m : Memory} {a : Nat} {v : Word}
    (hv : ∀ j, j < 4 → readByte m (a + j) = v.extractLsb' (8 * j) 8) {k n : Nat} (hk : k + n ≤ 4) :
    leWord (readBytes m (a + k) n) = zext (v.extractLsb' (8 * k) (8 * n)) := by
  apply BitVec.eq_of_getLsbD_eq
  intro i hi
  rw [getLsbD_leWord_readBytes _ _ _ _ hi, zext, BitVec.getLsbD_setWidth, BitVec.getLsbD_extractLsb']
  by_cases hrange : i < 8 * n
  · have hbyte : 8 * (k + i / 8) + i % 8 = 8 * k + i := by omega
    have hbit : i % 8 < 8 := by omega
    rw [Nat.add_assoc, hv _ (by omega), BitVec.getLsbD_extractLsb', hbyte]
    simp [hi, hrange, hbit]
  · simp [hrange]

/-- A read inside a word just stored: the address does not wrap, since the word lies inside memory (R27, R42). -/
theorem memRead_inside_stored {s t : State} {a v : Word} {enforce : Bool} (hc : s.cfg.wf) (hm : Memory.wf s.mem)
    (hst : s.memWrite a .word v enforce = .ok t) {k : Nat} {w : Width} (hk : k + w.bytes ≤ 4) :
    t.memRead (a + BitVec.ofNat 32 k) w false = .ok (zext (v.extractLsb' (8 * k) (8 * w.bytes))) := by
  unfold State.memWrite at hst
  split at hst <;> cases hst
  rename_i hvalid
  obtain ⟨-, hb, -⟩ := validAccess_iff.mp hvalid
  obtain ⟨-, -, hmax, -⟩ := hc
  have hbytes : Width.word.bytes = 4 := rfl
  have hpos : 0 < w.bytes := by cases w <;> decide
  have haddr : (a + BitVec.ofNat 32 k).toNat = a.toNat + k := by
    rw [BitVec.toNat_add, BitVec.toNat_ofNat]
    omega
  rw [memRead_of_valid (validAccess_iff.mpr ⟨?_, ?_, by simp⟩), haddr]
  · refine congrArg _ (leWord_readBytes_inside (fun j hj => ?_) hk)
    have hbyte := readByte_writeBytes_in hm (a := a.toNat) (bs := leBytes Width.word.bytes v) (k := j)
      (by rwa [leBytes_length])
    rwa [leBytes_getElem] at hbyte
  · rw [haddr]
    dsimp only
    omega
  · rw [haddr]
    dsimp only
    omega

/-- LH extends the half-word read to the word of its signed reading (R173). -/
theorem extendHalf_leWord_readBytes (m : Memory) (a : Nat) :
    extendHalf (leWord (readBytes m a Width.half.bytes)) = u32 (readByte m (a + 1) ++ readByte m a).toInt := by
  have hlow : ((readByte m (a + 1) ++ readByte m a).setWidth 32).extractLsb' 0 16 =
      readByte m (a + 1) ++ readByte m a := by simp [← BitVec.setWidth_eq_extractLsb']
  rw [extendHalf, Width.bytes, leWord_readBytes_half, hlow, sext_eq_u32]

/-- LHU leaves the half-word read as the word of its unsigned reading (R176). -/
theorem extendNone_leWord_readBytes_half (m : Memory) (a : Nat) :
    extendNone (leWord (readBytes m a Width.half.bytes)) = u32 (readByte m (a + 1) ++ readByte m a).toNat := by
  rw [extendNone, Width.bytes, leWord_readBytes_half, u32, BitVec.ofInt_natCast, BitVec.ofNat_toNat]

end Sys2Proof.Machine
end

section
/-! SUPPORT. Registers and memory (10_state.md section 1, 20_memory.md), LH, LHU, LW, SH and SW (44_load_store.md). -/

namespace Sys2Proof.Machine

/-- Settles O15: the register file's read-after-write law. -/
theorem registerFileReadsLastWrite : Obligations.RegisterFileReadsLastWrite :=
  fun s d r v => ⟨readReg_zero s, writeReg_zero s v, readReg_writeReg s d r v⟩

/-- Settles O16: the primitives test the access first; the value's bytes are the memory's, and the bytes written are the
value's. -/
theorem loadAndStorePrimitives : Obligations.LoadAndStorePrimitives := by
  intro s addr v w enforce
  dsimp only
  rw [← validAccess_iff]
  have hwidth : w.bytes ≤ 4 := by cases w <;> decide
  refine ⟨fun h => ⟨_, memRead_of_valid h, ?_, ?_⟩, memRead_of_invalid, fun h hm => ⟨_, memWrite_of_valid h, ?_, ?_⟩,
    memWrite_of_invalid⟩
  · exact fun k hk => leWord_readBytes_byte_at s.mem _ hk hwidth
  · exact fun j hj => leWord_readBytes_above s.mem _ _ hj
  · exact writeBytes_stores s hm addr w.bytes v s.pc
  · exact writeBytes_wf hm _ _

/-- Settles O17: each read is of a part of the stored word, at an offset that keeps it inside. -/
theorem narrowReadsOfAStoredWord : Obligations.NarrowReadsOfAStoredWord := by
  intro s t a v enforce hc hm hst
  have hread {k : Nat} {w : Width} (hk : k + w.bytes ≤ 4) := memRead_inside_stored hc hm hst hk
  have hstart {w : Width} (hw : 0 + w.bytes ≤ 4) :
      t.memRead a w false = .ok (zext (v.extractLsb' 0 (8 * w.bytes))) := by
    simpa using hread hw
  have hword := hstart (w := .word) (by decide)
  rw [zext, Width.bytes, BitVec.extractLsb'_eq_self, BitVec.setWidth_eq] at hword
  exact ⟨hstart (w := .byte) (by decide), hread (k := 1) (w := .byte) (by decide),
    hread (k := 2) (w := .byte) (by decide), hread (k := 3) (w := .byte) (by decide),
    hstart (w := .half) (by decide), hread (k := 2) (w := .half) (by decide), hword⟩

/-- Settles O18: the bound is a multiple of every width, so the last aligned access ends at it. -/
theorem alignedAccessesNeverStraddleTheBound : Obligations.AlignedAccessesNeverStraddleTheBound := by
  intro s ea w hc halign
  obtain ⟨hmod, -⟩ := hc
  refine ⟨fun ⟨hlt, _, ha⟩ => ⟨hlt, ha halign⟩, fun ⟨hlt, ha⟩ => ⟨hlt, ?_, fun _ => ha⟩⟩
  cases w <;> simp only [Width.bytes] at ha ⊢ <;> omega

/-- Settles O19: the sum of the two words is that of their readings. -/
theorem effectiveAddressWraps : Obligations.EffectiveAddressWraps := effAddr_eq

/-- Settles O32: the three are loads of two and four bytes, with the sign-extended, the zero-extended and the whole
value. -/
theorem loadHalfAndWord : Obligations.LoadHalfAndWord := by
  intro s rd rs1 imm
  refine ⟨fun hok => ⟨?_, ?_⟩, fun hok => ?_, fun hno => ⟨?_, ?_⟩, fun hno => ?_⟩
  · exact load_completes (w := .half) hok (extendHalf_leWord_readBytes _ _)
  · exact load_completes (w := .half) hok (extendNone_leWord_readBytes_half _ _)
  · exact load_completes (w := .word) hok (leWord_readBytes_word _ _)
  · exact load_records (w := .half) hno
  · exact load_records (w := .half) hno
  · exact load_records (w := .word) hno

/-- Settles O34: both are stores, of two and of four bytes. -/
theorem storeHalfAndWord : Obligations.StoreHalfAndWord := by
  intro s rs1 rs2 imm hm
  refine ⟨fun hok => ?_, fun hok => ?_, fun hno => ?_, fun hno => ?_⟩
  · exact store_completes (w := .half) hm hok
  · exact store_completes (w := .word) hm hok
  · exact store_records (w := .half) hno
  · exact store_records (w := .word) hno

end Sys2Proof.Machine
end

section
/-! SUPPORT. The shifts, the high product and the division (R113, R117, R118, R122 to R124): the value each writes as
the integer it denotes, the words and the shared forms of the shifts, and that `u32` respects sums and products. -/

namespace Sys2Proof

/-- A shift word of opcode OP-IMM is what the minor map of R87 gives its selector and shift type. -/
theorem decode_opImm_of_functs {w : Word} {f7 : BitVec 7} {f3 : BitVec 3} (hop : opcodeOf w = 0b0010011#7)
    (h7 : funct7Of w = f7) (h3 : funct3Of w = f3) :
    decode w = decodeOpImm f7 f3 (rdOf w) (rs1Of w) (iField w) (shamtOf w) := by
  rw [decode_opImm hop, h7, h3]

end Sys2Proof

namespace Sys2Proof.Machine

/-- An arithmetic right shift divides the signed reading, rounding down (R118). -/
theorem aluSra_eq (a : Word) (n : Nat) : aluSra a n = u32 (s32 a / 2 ^ n) := by
  rw [aluSra, BitVec.sshiftRight, Int.shiftRight_eq_div_pow]
  push_cast
  rfl

section
variable {i : Instr} {s : State} {f : Word → Nat → Word} {rd rs1 : RegIdx} {v : Word}

/-- An instruction of the register-shift form completes in every state, with the count `x[rs2] mod 32` (R113). -/
theorem completes_of_opShift {rs2 : RegIdx} (hi : exec i s = opShift f rd rs1 rs2 s)
    (hv : f (s.readReg rs1) ((s.readReg rs2).toNat % 32) = v) :
    Completes i s fun t => WritesReg s t rd v (s.pc + 4#32) := by
  rw [Completes, hi]
  exact finish_completes s rd (by rw [shiftCount_eq, hv])

/-- An instruction of the immediate-shift form completes in every state, with the count of the word (R137 to R139). -/
theorem completes_of_opShiftImm {shamt : BitVec 5} (hi : exec i s = opShiftImm f rd rs1 shamt s)
    (hv : f (s.readReg rs1) shamt.toNat = v) :
    Completes i s fun t => WritesReg s t rd v (s.pc + 4#32) := by
  rw [Completes, hi]
  exact finish_completes s rd hv

end

theorem u32_add (m n : Int) : u32 (m + n) = u32 m + u32 n := BitVec.ofInt_add ..

theorem u32_mul (m n : Int) : u32 (m * n) = u32 m * u32 n := BitVec.ofInt_mul ..

/-- The 64-bit value of an integer is that of its quotient by 2^32 above that of the integer itself. -/
theorem ofInt_64_eq_append (n : Int) : u32 (n / 4294967296) ++ u32 n = BitVec.ofInt 64 n := by
  apply BitVec.eq_of_toNat_eq
  rw [BitVec.toNat_append, ← Nat.shiftLeft_add_eq_or_of_lt (BitVec.isLt _), Nat.shiftLeft_eq]
  simp only [u32, BitVec.toNat_ofInt]
  omega

/-- The low word of the product is that of the unsigned readings too (R121, R122). -/
theorem aluMul_eq_unsigned (a b : Word) : aluMul a b = u32 (a.toNat * b.toNat) := by
  rw [u32_mul, u32_natCast, u32_natCast, aluMul]

/-- In the overflow corner the truncating quotient wraps to the dividend, so it needs no case of its own (R123, D13). -/
theorem aluDiv_eq (a b : Word) :
    aluDiv a b = if s32 b = 0 then 0xFFFFFFFF#32 else u32 (Int.tdiv (s32 a) (s32 b)) := by
  unfold aluDiv
  split
  · rfl
  split
  · rename_i hcorner
    obtain ⟨ha, hb⟩ := hcorner
    rw [ha, hb]
    decide
  · rfl

/-- In the overflow corner the truncating remainder is 0, so it needs no case of its own (R124, D13). -/
theorem aluRem_eq (a b : Word) : aluRem a b = if s32 b = 0 then a else u32 (Int.tmod (s32 a) (s32 b)) := by
  unfold aluRem
  split
  · exact u32_s32 a
  split
  · rename_i hcorner
    obtain ⟨ha, hb⟩ := hcorner
    rw [ha, hb]
    decide
  · rw [Int.tmod_def]

/-- Outside the overflow corner the truncating quotient of two words is in a word's range. -/
theorem s32_u32_tdiv {a b : Word} (h : ¬(s32 a = -2147483648 ∧ s32 b = -1)) :
    s32 (u32 (Int.tdiv (s32 a) (s32 b))) = Int.tdiv (s32 a) (s32 b) := by
  have hcorner : a ≠ BitVec.intMin 32 ∨ b ≠ -1#32 := by
    by_contra hc
    obtain ⟨rfl, rfl⟩ : a = BitVec.intMin 32 ∧ b = -1#32 := by simpa only [not_or, not_not] using hc
    exact h (by decide)
  rw [← BitVec.toInt_sdiv_of_ne_or_ne a b hcorner, u32_s32]

/-- The remainder of two words is in a word's range. -/
theorem s32_u32_tmod (a b : Word) : s32 (u32 (Int.tmod (s32 a) (s32 b))) = Int.tmod (s32 a) (s32 b) := by
  rw [← BitVec.toInt_srem, u32_s32]

/-- A remainder is below the divisor and has the dividend's sign (R124). -/
theorem tmod_bounds {a b : Int} (hb : b ≠ 0) :
    (Int.tmod a b).natAbs < b.natAbs ∧ (0 ≤ a → 0 ≤ Int.tmod a b) ∧ (a ≤ 0 → Int.tmod a b ≤ 0) := by
  refine ⟨?_, Int.tmod_nonneg b, fun ha => ?_⟩
  · rw [Int.natAbs_tmod]
    exact Nat.mod_lt _ (Int.natAbs_pos.mpr hb)
  · have hneg := Int.tmod_nonneg b (Int.neg_nonneg.mpr ha)
    rw [Int.neg_tmod] at hneg
    omega

end Sys2Proof.Machine
end

section
/-! SUPPORT. SLL, SRL, SRA, MULH, DIV and REM (41_alu_register.md section 2), SLLI, SRLI and SRAI (42_alu_immediate.md
section 2). -/

namespace Sys2Proof.Machine

/-- Settles O23: the three are of the register-shift form. -/
theorem registerShifts : Obligations.RegisterShifts := by
  intro s rd rs1 rs2
  refine ⟨?_, ?_, ?_⟩
  · exact completes_of_opShift rfl (aluSll_eq _ _)
  · exact completes_of_opShift rfl (aluSrl_eq _ _)
  · exact completes_of_opShift rfl (aluSra_eq _ _)

/-- Settles O30: the three are of the immediate-shift form. -/
theorem immediateShifts : Obligations.ImmediateShifts := by
  refine ⟨fun w hop => ⟨fun h3 h7 => ?_, fun h3 h7 => ?_, fun h3 h7 => ?_⟩, fun s rd rs1 shamt => ⟨?_, ?_, ?_⟩⟩
  · exact decode_opImm_of_functs hop h7 h3
  · exact decode_opImm_of_functs hop h7 h3
  · exact decode_opImm_of_functs hop h7 h3
  · exact completes_of_opShiftImm rfl (aluSll_eq _ _)
  · exact completes_of_opShiftImm rfl (aluSrl_eq _ _)
  · exact completes_of_opShiftImm rfl (aluSra_eq _ _)

/-- Settles O25: the words written are the quotient and the residue of the product by 2^32. -/
theorem multiplyHighWord : Obligations.MultiplyHighWord := by
  intro s rd rs1 rs2
  refine ⟨aluMulh (s.readReg rs1) (s.readReg rs2), aluMul (s.readReg rs1) (s.readReg rs2), ?_, ?_, ?_, ?_⟩
  · exact completes_of_opReg rfl rfl
  · exact completes_of_opReg rfl rfl
  · rw [aluMulh, aluMul_eq, ofInt_64_eq_append]
  · exact aluMul_eq_unsigned _ _

/-- Settles O26: both are of the register-register form. -/
theorem divideAndRemainder : Obligations.DivideAndRemainder := by
  intro s rd rs1 rs2
  exact ⟨completes_of_opReg rfl (aluDiv_eq _ _), completes_of_opReg rfl (aluRem_eq _ _)⟩

/-- Settles O27: `u32` respects sums and products, so the integer law of truncating division gives the wrapped one; the
remainder always fits a word, the quotient outside the overflow corner. -/
theorem quotientAndRemainderRecompose : Obligations.QuotientAndRemainderRecompose := by
  intro s rd rs1 rs2
  refine ⟨aluDiv (s.readReg rs1) (s.readReg rs2), aluRem (s.readReg rs1) (s.readReg rs2), ?_⟩
  generalize ha : s.readReg rs1 = a
  generalize hb : s.readReg rs2 = b
  refine ⟨completes_of_opReg rfl (by rw [ha, hb]), completes_of_opReg rfl (by rw [ha, hb]), ?_, fun h0 => ?_,
    fun h0 hcorner => ?_⟩
  · rw [aluDiv_eq, aluRem_eq]
    split
    · rename_i h0
      rw [h0, Int.mul_zero, Int.zero_add, u32_s32]
    · calc a = u32 (Int.tdiv (s32 a) (s32 b) * s32 b + Int.tmod (s32 a) (s32 b)) := by
            rw [Int.tdiv_mul_add_tmod, u32_s32]
        _ = _ := by rw [u32_add, u32_mul, u32_add, u32_mul, u32_s32 (u32 _), u32_s32 (u32 _)]
  · rw [aluRem_eq, if_neg h0, s32_u32_tmod]
    exact tmod_bounds h0
  · rw [aluDiv_eq, if_neg h0, s32_u32_tdiv hcorner, aluRem_eq, if_neg h0, s32_u32_tmod, Int.tdiv_mul_add_tmod]

end Sys2Proof.Machine
end

section
/-! SUPPORT. The `li` expansion (R92, D22): its two parts make the constant, and two writes of one register are one. -/

namespace Sys2Proof.Machine

/-- The low part is the residue modulo 2^12. -/
theorem loPart_eq_setWidth (v : Word) : loPart v = v.setWidth 12 := (BitVec.setWidth_eq_extractLsb' (by decide)).symm

/-- Sign extension keeps the low bits. -/
theorem setWidth_sext (x : BitVec 12) : (sext x).setWidth 12 = x := by
  apply BitVec.eq_of_getLsbD_eq
  intro k hk
  have hmin : min k 11 = k := by omega
  rw [BitVec.getLsbD_setWidth, getLsbD_sext_imm x (by omega), hmin]
  simp [hk]

/-- The upper field of a word whose low 12 bits are 0 makes the whole word. -/
theorem upperImm_uField_of_low_zero {x : Word} (h : x.setWidth 12 = 0#12) : upperImm (uField x) = x := by
  apply BitVec.eq_of_getLsbD_eq
  intro k hk
  simp only [upperImm, uField, BitVec.getLsbD_append, BitVec.getLsbD_extractLsb']
  by_cases hlow : k < 12
  · have hbit : (x.setWidth 12).getLsbD k = false := by rw [h, BitVec.getLsbD_zero]
    rw [BitVec.getLsbD_setWidth] at hbit
    simpa [hlow] using hbit
  · have hrange : k - 12 < 20 := by omega
    have hplace : 12 + (k - 12) = k := by omega
    simp [hlow, hrange, hplace]

/-- The low 12 bits of what is left of the constant are 0, so that the upper immediate holds all of it (R92). -/
theorem upperImm_hiPart (v : Word) : upperImm (hiPart v) = v - sext (loPart v) := by
  have hsum : (v - sext (loPart v)).setWidth 12 + (sext (loPart v)).setWidth 12 = v.setWidth 12 := by
    rw [← BitVec.setWidth_add _ _ (by decide), BitVec.sub_add_cancel]
  rw [setWidth_sext, loPart_eq_setWidth] at hsum
  exact upperImm_uField_of_low_zero (add_eq_right.mp hsum)

/-- A constant that 12 bits hold is its low part (R92). -/
theorem sext_loPart {v : Word} (h : -2048 ≤ s32 v ∧ s32 v ≤ 2047) : sext (loPart v) = v := by
  apply BitVec.eq_of_toInt_eq
  have hlow : (loPart v).toNat = v.toNat % 4096 := by rw [loPart_eq_setWidth, BitVec.toNat_setWidth]
  have hread := s32_sext (loPart v) (by decide)
  rw [BitVec.toInt_eq_toNat_cond, hlow] at hread
  simp only [s32, BitVec.toInt_eq_toNat_cond v] at h hread ⊢
  omega

section
variable {s t u : State} {rd : RegIdx} {v v' p p' : Word}

/-- Of two writes of one register the second counts. -/
theorem writesReg_trans (h : WritesReg s t rd v p) (h' : WritesReg t u rd v' p') : WritesReg s u rd v' p' := by
  obtain ⟨hreg, -, hmem, hout, hstatus, hcause, hinfo, hcfg⟩ := h
  obtain ⟨hreg', hpc', hmem', hout', hstatus', hcause', hinfo', hcfg'⟩ := h'
  refine ⟨fun r => ?_, hpc', fun a => (hmem' a).trans (hmem a), hout'.trans hout, hstatus'.trans hstatus,
    hcause'.trans hcause, hinfo'.trans hinfo, hcfg'.trans hcfg⟩
  rw [hreg', hreg]
  split <;> rfl

/-- The value of a write to register 0 does not matter (R21). -/
theorem writesReg_zero_value (h : WritesReg s t 0#5 v p) : WritesReg s t 0#5 v' p := by
  obtain ⟨hreg, hrest⟩ := h
  exact ⟨fun r => by rw [hreg, if_neg (by simp), if_neg (by simp)], hrest⟩

theorem execAll_cons {i : Instr} {is : List Instr} (h : exec i s = .next t) : execAll (i :: is) s = execAll is t := by
  rw [execAll, h]

end

/-- LUI of the upper part, then ADDI of the low part to the same register, leave the constant in it, and nothing when it
is register 0. -/
theorem lui_addi_write (s : State) (rd : RegIdx) (v : Word) :
    ∃ t, execAll [.lui rd (hiPart v), .addi rd rd (loPart v)] s = .next t ∧
      WritesReg s t rd v (s.pc + 4#32 + 4#32) := by
  obtain ⟨t, ht, hwt⟩ : Completes (.lui rd (hiPart v)) s _ := finish_completes s rd (upperImm_hiPart v)
  obtain ⟨u, hu, hwu⟩ : Completes (.addi rd rd (loPart v)) t _ := completes_of_opImm rfl rfl
  have ⟨hreg, hpc, _⟩ := hwt
  rw [hpc] at hwu
  refine ⟨u, (execAll_cons ht).trans ((execAll_cons hu).trans rfl), ?_⟩
  by_cases hrd : rd = 0#5
  · subst hrd
    exact writesReg_zero_value (writesReg_trans hwt hwu)
  · have hread : aluAdd (t.readReg rd) (sext (loPart v)) = v := by
      rw [hreg, if_pos ⟨rfl, hrd⟩, aluAdd, BitVec.sub_add_cancel]
    rw [hread] at hwu
    exact writesReg_trans hwt hwu

end Sys2Proof.Machine
end

section
/-! SUPPORT. The decimal text of syscall 1 (R191, D8): what a spelling of a number is, that one more digit spells one
more place, and so what `decimalDigits` spells. -/

namespace Sys2Proof.Machine

/-- The byte string is the minimal decimal spelling of the number: decimal digits, at least one, no leading zero but in
`0` itself, of that value (R191). -/
def SpellsDecimal (ds : List Byte) (n : Nat) : Prop :=
  ds ≠ [] ∧ (∀ d ∈ ds, 0x30 ≤ d.toNat ∧ d.toNat ≤ 0x39) ∧ (ds.head? = some 0x30#8 → ds = [0x30#8]) ∧ decimalValue ds = n

/-- The byte of a digit. -/
theorem digit_toNat {k : Nat} (hk : k < 10) : (BitVec.ofNat 8 (0x30 + k)).toNat = 0x30 + k := by
  rw [BitVec.toNat_ofNat]
  omega

theorem decimalValue_snoc (ds : List Byte) {k : Nat} (hk : k < 10) :
    decimalValue (ds ++ [BitVec.ofNat 8 (0x30 + k)]) = 10 * decimalValue ds + k := by
  simp only [decimalValue, List.foldl_append, List.foldl_cons, List.foldl_nil, digit_toNat hk]
  omega

theorem spellsDecimal_digit {n : Nat} (h : n < 10) : SpellsDecimal [BitVec.ofNat 8 (0x30 + n)] n := by
  refine ⟨by simp, fun d hd => ?_, fun hd => by simpa using hd, ?_⟩
  · obtain rfl := List.mem_singleton.mp hd
    rw [digit_toNat h]
    omega
  · simpa [decimalValue] using decimalValue_snoc [] h

/-- A digit after the spelling of a number other than 0. -/
theorem spellsDecimal_snoc {ds : List Byte} {m k : Nat} (h : SpellsDecimal ds m) (hm : 0 < m) (hk : k < 10) :
    SpellsDecimal (ds ++ [BitVec.ofNat 8 (0x30 + k)]) (10 * m + k) := by
  obtain ⟨hne, hdigits, hlead, hvalue⟩ := h
  refine ⟨by simp, fun d hd => ?_, fun hhead => ?_, by rw [decimalValue_snoc ds hk, hvalue]⟩
  · rcases List.mem_append.mp hd with hd | hd
    · exact hdigits d hd
    · obtain rfl := List.mem_singleton.mp hd
      rw [digit_toNat hk]
      omega
  · rw [List.head?_append_of_ne_nil _ hne] at hhead
    have hzero : decimalValue ds = 0 := by rw [hlead hhead]; rfl
    omega

/-- The digits of a number are its minimal spelling, where the fuel holds them. -/
theorem decimalDigits_spells (fuel n : Nat) (h : n < 10 ^ (fuel + 1)) :
    SpellsDecimal (decimalDigits (fuel + 1) n) n := by
  induction fuel generalizing n with
  | zero =>
    have hn : n < 10 := h
    rw [decimalDigits, if_pos hn]
    exact spellsDecimal_digit hn
  | succ fuel ih =>
    rw [decimalDigits]
    split
    · exact spellsDecimal_digit ‹_›
    · have hrest := ih (n / 10) (Nat.div_lt_of_lt_mul (by rwa [Nat.pow_succ'] at h))
      have hn : 10 * (n / 10) + n % 10 = n := Nat.div_add_mod n 10
      have := spellsDecimal_snoc hrest (by omega) (Nat.mod_lt n (by decide))
      rwa [hn] at this

/-- The text is the sign, then the digits of the magnitude (R191). -/
theorem decimalSigned_eq (v : Word) :
    decimalSigned v = (if s32 v < 0 then [0x2D#8] else []) ++ decimalDigits 10 (s32 v).natAbs := by
  unfold decimalSigned
  split <;> rfl

/-- Print integer (R191). -/
theorem exec_ecall_of_one {s : State} (h : s.readReg s.cfg.syscallNumReg = 1#32) :
    exec .ecall s = .next (s.emit (decimalSigned (s.readReg s.cfg.syscallArgReg))).advance := by
  simp [exec, execEcall, h]

end Sys2Proof.Machine
end

section
/-! SUPPORT. The `li` expansion (30_encoding.md section 7) and syscall 1 (45_syscall.md). -/

namespace Sys2Proof.Machine

/-- Settles O40: ADDI to register 0's value, LUI alone, or LUI and ADDI, by the case of the expansion. -/
theorem liLoadsItsConstant : Obligations.LiLoadsItsConstant := by
  intro s rd v
  unfold asmLi
  split
  · rename_i hsmall
    obtain ⟨t, ht, hw⟩ : Completes (.addi rd 0#5 (loPart v)) s _ :=
      completes_of_opImm (v := v) rfl (by rw [readReg_zero, aluAdd, BitVec.zero_add, sext_loPart hsmall])
    exact ⟨t, (execAll_cons ht).trans rfl, hw⟩
  split
  · rename_i hlo
    have hupper : upperImm (hiPart v) = v := by simp [upperImm_hiPart, hlo, sext]
    obtain ⟨t, ht, hw⟩ : Completes (.lui rd (hiPart v)) s _ := finish_completes s rd hupper
    exact ⟨t, (execAll_cons ht).trans rfl, hw⟩
  · obtain ⟨t, ht, hw⟩ := lui_addi_write s rd v
    refine ⟨t, ht, ?_⟩
    rwa [BitVec.add_assoc] at hw

/-- Settles O41: ten digits hold the magnitude of any word. -/
theorem printInteger : Obligations.PrintInteger := by
  intro s h
  generalize hv : s.readReg s.cfg.syscallArgReg = v
  have hmag : (s32 v).natAbs < 10 ^ 10 := by
    have := BitVec.le_toInt v
    have := BitVec.toInt_lt (x := v)
    simp only [s32]
    omega
  obtain ⟨hne, hdigits, hlead, hvalue⟩ := decimalDigits_spells 9 _ hmag
  refine ⟨_, hne, hdigits, hlead, hvalue, _, exec_ecall_of_one h, ?_⟩
  rw [hv, ← decimalSigned_eq]
  exact emit_advance_emits s _

end Sys2Proof.Machine
end

section
/-! SUPPORT. What a fetched word is, given the instruction it decodes to: a SYSTEM word, a store, a word with a
destination (R22, R88, R90). -/

namespace Sys2Proof

variable {w : Word} {i : Instr}

/-- Only SYSTEM words are syscalls (R197). -/
theorem opcodeOf_of_decode_ecall (h : decode w = .ok .ecall) : opcodeOf w = 0b1110011#7 := by
  rcases decode_cases h with ⟨-, hi⟩ | ⟨hop, -⟩ | rfl
  · cases hi
  · exact hop
  · exact opcodeOf_iWord ..

/-- The selectors of STORE with the bytes each stores (R88, R171). -/
def storeSelectors : List (BitVec 3 × Nat) := [(0b000#3, 1), (0b001#3, 2), (0b010#3, 4)]

/-- The word of a store holds its base register, its displacement and a selector of its width. -/
theorem store_fields_of_decode {wd : Machine.Width} {rs1 rs2 : RegIdx} {imm : BitVec 12}
    (h : decode w = .ok (Machine.storeInstr wd rs1 rs2 imm)) :
    opcodeOf w = 0b0100011#7 ∧ (funct3Of w, wd.bytes) ∈ storeSelectors ∧ rs1Of w = rs1 ∧ sField w = imm := by
  have hencode {f3 : BitVec 3} (hf3 : (f3, wd.bytes) ∈ storeSelectors) (hw : sWord imm rs2 rs1 f3 = w) :
      opcodeOf w = 0b0100011#7 ∧ (funct3Of w, wd.bytes) ∈ storeSelectors ∧ rs1Of w = rs1 ∧ sField w = imm := by
    subst hw
    exact ⟨opcodeOf_sWord .., by rwa [funct3Of_sWord], rs1Of_sWord .., sField_sWord ..⟩
  rcases decode_cases h with ⟨-, hi⟩ | ⟨-, hi⟩ | hw
  · cases wd <;> cases hi
  · cases wd <;> cases hi
  · cases wd
    · exact hencode (by decide) hw
    · exact hencode (by decide) hw
    · exact hencode (by decide) hw

/-- The opcodes without a destination register (R22). -/
def opcodesWithoutDest : List (BitVec 7) := [0b0100011#7, 0b1100011#7, 0b1110011#7]

/-- The canonical word of an instruction with a destination holds it in the rd field, under an opcode that has one. -/
theorem rdOf_encode {rd : RegIdx} (h : i.dest = some rd) :
    rdOf (encode i) = rd ∧ opcodeOf (encode i) ∉ opcodesWithoutDest := by
  cases i
  case add | sub | sll | slt | sltu | xor | srl | sra | or | and | mul | mulh | div | rem =>
    cases h
    exact ⟨rdOf_rWord .., by rw [encode, opcodeOf_rWord]; decide⟩
  case addi | slti | sltiu | xori | ori | andi | lb | lh | lw | lbu | lhu | jalr =>
    cases h
    exact ⟨rdOf_iWord .., by rw [encode, opcodeOf_iWord]; decide⟩
  case slli | srli | srai =>
    cases h
    exact ⟨rdOf_shiftWord .., by rw [encode, opcodeOf_shiftWord]; decide⟩
  case jal =>
    cases h
    exact ⟨rdOf_jWord .., by rw [encode, opcodeOf_jWord]; decide⟩
  case lui | auipc =>
    cases h
    exact ⟨rdOf_uWord .., by rw [encode, opcodeOf_uWord]; decide⟩
  all_goals cases h

/-- The same of every word that decodes to the instruction. -/
theorem rdOf_of_decode {rd : RegIdx} (h : decode w = .ok i) (hd : i.dest = some rd) :
    rdOf w = rd ∧ opcodeOf w ∉ opcodesWithoutDest := by
  rcases decode_cases h with ⟨hop, rfl⟩ | ⟨-, rfl⟩ | rfl
  · exact ⟨Option.some.inj hd, by rw [hop]; decide⟩
  · cases hd
  · exact rdOf_encode hd

end Sys2Proof
end

section
/-! SUPPORT. What one instruction, and then one step, can do to each piece of state: the exit, the console, a register,
a byte of memory. -/

namespace Sys2Proof.Machine

variable {s t : State} {i : Instr}

/-- Only syscall 10 leaves a RUNNING machine EXITED (R193, R212). -/
theorem exec_exited (hrun : s.status = .running) (he : exec i s = .next t) (hx : t.status = .exited) :
    i = .ecall ∧ s.readReg s.cfg.syscallNumReg = 10#32 ∧ t = (s.emit s.cfg.exitNotice).haltExit := by
  rcases exec_next he with ⟨f, -, rfl⟩ | ⟨rd, v, -, rfl⟩ | ⟨rd, p, -, -, rfl⟩ | ⟨p, -, rfl⟩ |
    ⟨w, rs1, rs2, imm, -, -, rfl⟩ | ⟨-, bs, rfl⟩ | hexit
  case inr.inr.inr.inr.inr.inr => exact hexit
  all_goals simp [hrun] at hx

/-- The console only grows, and only by ECALL (R29). -/
theorem exec_out (he : exec i s = .next t) : ∃ bs, t.out = s.out ++ bs ∧ (bs ≠ [] → i = .ecall) := by
  rcases exec_next he with ⟨f, -, rfl⟩ | ⟨rd, v, -, rfl⟩ | ⟨rd, p, -, -, rfl⟩ | ⟨p, -, rfl⟩ |
    ⟨w, rs1, rs2, imm, -, -, rfl⟩ | ⟨rfl, bs, rfl⟩ | ⟨rfl, -, rfl⟩
  case inr.inr.inr.inr.inr.inl => exact ⟨bs, by simp, fun _ => rfl⟩
  case inr.inr.inr.inr.inr.inr => exact ⟨s.cfg.exitNotice, by simp, fun _ => rfl⟩
  all_goals exact ⟨[], by simp, by simp⟩

/-- A register that changes is the instruction's destination, and not register 0 (R21, R22). -/
theorem exec_readReg {r : RegIdx} (he : exec i s = .next t) (hr : t.readReg r ≠ s.readReg r) :
    r ≠ 0#5 ∧ i.dest = some r := by
  have hwrite {rd : RegIdx} {v : Word} (hd : i.dest = some rd) (hr : (s.writeReg rd v).readReg r ≠ s.readReg r) :
      r ≠ 0#5 ∧ i.dest = some r := by
    rw [readReg_writeReg] at hr
    split at hr
    · rename_i hwritten
      obtain ⟨rfl, h0⟩ := hwritten
      exact ⟨h0, hd⟩
    · exact absurd rfl hr
  rcases exec_next he with ⟨f, -, rfl⟩ | ⟨rd, v, hd, rfl⟩ | ⟨rd, p, hd, -, rfl⟩ | ⟨p, -, rfl⟩ |
    ⟨w, rs1, rs2, imm, -, -, rfl⟩ | ⟨-, bs, rfl⟩ | ⟨-, -, rfl⟩
  case inr.inl => exact hwrite hd hr
  case inr.inr.inl => exact hwrite hd hr
  all_goals exact absurd rfl hr

/-- A byte of memory that changes is one that a store names, inside memory (R44). -/
theorem exec_readMem {a : Nat} (he : exec i s = .next t) (ha : t.readMem a ≠ s.readMem a) :
    ∃ w rs1 rs2 imm, i = storeInstr w rs1 rs2 imm ∧ (effAddr s rs1 imm).toNat ≤ a ∧
      a < (effAddr s rs1 imm).toNat + w.bytes ∧ a < s.cfg.memSize := by
  rcases exec_next he with ⟨f, -, rfl⟩ | ⟨rd, v, -, rfl⟩ | ⟨rd, p, -, -, rfl⟩ | ⟨p, -, rfl⟩ |
    ⟨w, rs1, rs2, imm, hi, hv, rfl⟩ | ⟨-, bs, rfl⟩ | ⟨-, -, rfl⟩
  case inr.inr.inr.inr.inl =>
    obtain ⟨-, hb, -⟩ := validAccess_iff.mp hv
    have hin : ¬(a < (effAddr s rs1 imm).toNat ∨ (effAddr s rs1 imm).toNat + w.bytes ≤ a) := fun hout =>
      ha (readByte_writeBytes_out s.mem (by rwa [leBytes_length]))
    exact ⟨w, rs1, rs2, imm, hi, by omega, by omega, by omega⟩
  all_goals simp at ha

end Sys2Proof.Machine
end

section
/-! SUPPORT. The frame of a step (10_state.md sections 1, 3 and 4) and the successful end (60_exceptions.md section 4):
each is about the instruction the fetched word decodes to, since a fault changes none of it. -/

namespace Sys2Proof.Machine

/-- Settles O49: a fault leaves the machine FAULTED, and of the instructions only syscall 10 exits. -/
theorem onlySyscallTenEndsSuccessfully : Obligations.OnlySyscallTenEndsSuccessfully := by
  intro s t hst hx
  obtain ⟨hrun, ⟨-, rfl⟩ | ⟨w, e, -, -, rfl⟩ | ⟨w, i, hf, hd, he⟩⟩ := step_next hst
  · simp at hx
  · simp at hx
  · obtain ⟨rfl, hnum, rfl⟩ := exec_exited hrun he hx
    exact ⟨hnum, ⟨w, fetch_eq_ok.mp hf, opcodeOf_of_decode_ecall hd⟩, rfl⟩

/-- Settles O50: of the instructions only ECALL appends. -/
theorem consoleGrowsOnlyBySyscalls : Obligations.ConsoleGrowsOnlyBySyscalls := by
  intro s t hst
  obtain ⟨-, ⟨-, rfl⟩ | ⟨w, e, -, -, rfl⟩ | ⟨w, i, hf, hd, he⟩⟩ := step_next hst
  · exact ⟨[], by simp, by simp⟩
  · exact ⟨[], by simp, by simp⟩
  · obtain ⟨bs, hout, hecall⟩ := exec_out he
    refine ⟨bs, hout, fun hbs => ⟨w, fetch_eq_ok.mp hf, opcodeOf_of_decode_ecall ?_⟩⟩
    rw [hd, hecall hbs]

/-- Settles O51: the register written is the instruction's destination, which the word's rd field names. -/
theorem onlyTheDestinationRegisterChanges : Obligations.OnlyTheDestinationRegisterChanges := by
  intro s t r hst hr
  obtain ⟨-, ⟨-, rfl⟩ | ⟨w, e, -, -, rfl⟩ | ⟨w, i, hf, hd, he⟩⟩ := step_next hst
  · exact absurd rfl hr
  · exact absurd rfl hr
  · obtain ⟨h0, hdest⟩ := exec_readReg he hr
    exact ⟨h0, w, fetch_eq_ok.mp hf, rdOf_of_decode hd hdest⟩

/-- Settles O52: the bytes written are those of a store, whose word names the width, the base and the displacement. -/
theorem memoryChangesOnlyByStores : Obligations.MemoryChangesOnlyByStores := by
  intro s t a hst ha
  obtain ⟨-, ⟨-, rfl⟩ | ⟨w, e, -, -, rfl⟩ | ⟨w, i, hf, hd, he⟩⟩ := step_next hst
  · exact absurd rfl ha
  · exact absurd rfl ha
  · obtain ⟨wd, rs1, rs2, imm, rfl, hlow, hhigh, hbound⟩ := exec_readMem he ha
    obtain ⟨hop, hsel, rfl, rfl⟩ := store_fields_of_decode hd
    exact ⟨w, wd.bytes, fetch_eq_ok.mp hf, hop, hsel, hlow, hhigh, hbound⟩

end Sys2Proof.Machine
end

section
/-! SUPPORT. Where each fault comes from (60_exceptions.md section 1): the raisers, as two relations, and that a
faulting instruction and a faulting step are always one of them. -/

namespace Sys2Proof.Machine

/-- The selectors of LOAD with the bytes each reads (R88, R171). -/
def loadSelectors : List (BitVec 3 × Nat) := [(0b000#3, 1), (0b001#3, 2), (0b010#3, 4), (0b100#3, 1), (0b101#3, 2)]

/-- What executing the word `w` can raise: the fault kind and what it records (R202 to R205). -/
inductive ExecRaises (s : State) (w : Word) : Cause → Word → Prop where
  | read {n : Nat} (hop : opcodeOf w = 0b0000011#7) (hn : (funct3Of w, n) ∈ loadSelectors)
      (h : ¬AccessOk s (effAddr s (rs1Of w) (iField w)) n) :
      ExecRaises s w .invalidRead (effAddr s (rs1Of w) (iField w))
  | write {n : Nat} (hop : opcodeOf w = 0b0100011#7) (hn : (funct3Of w, n) ∈ storeSelectors)
      (h : ¬AccessOk s (effAddr s (rs1Of w) (sField w)) n) :
      ExecRaises s w .invalidWrite (effAddr s (rs1Of w) (sField w))
  | branch {p : Word} (hop : opcodeOf w = 0b1100011#7) (hp : p.toNat % 4 ≠ 0)
      (h : s.pc.toNat % 4 = 0 → BranchTaken s w ∧ p = branchTarget s (bField w)) :
      ExecRaises s w .misalignedTarget p
  | jal (hop : opcodeOf w = 0b1101111#7) (hp : (jumpTarget s (jField w)).toNat % 4 ≠ 0) :
      ExecRaises s w .misalignedTarget (jumpTarget s (jField w))
  | jalr (hop : opcodeOf w = 0b1100111#7) (hp : (jumpRegTarget s (rs1Of w) (iField w)).toNat % 4 ≠ 0) :
      ExecRaises s w .misalignedTarget (jumpRegTarget s (rs1Of w) (iField w))
  | syscall (hop : opcodeOf w = 0b1110011#7) (hn : s.readReg s.cfg.syscallNumReg ∉ [1#32, 4#32, 10#32, 11#32]) :
      ExecRaises s w .unknownSyscall (s.readReg s.cfg.syscallNumReg)

/-- What a step can raise: in the fetch, in the decoder, or in executing the fetched word (R201 to R205). -/
inductive StepRaises (s : State) : Cause → Word → Prop where
  | fetch (h : s.cfg.memSize < s.pc.toNat + 4) : StepRaises s .invalidRead s.pc
  | decode {w : Word} {e : DecodeError} (hw : FetchedWord s w) (h : Sys2Proof.decode w = .error e) :
      StepRaises s .invalidInstruction w
  | exec {w : Word} {c : Cause} {info : Word} (hw : FetchedWord s w) (h : ExecRaises s w c info) : StepRaises s c info

variable {s t : State} (hrun : s.status = .running) (hf : t.status = .faulted)

include hrun hf

theorem finish_not_faulted {rd : RegIdx} {v : Word} : s.finish rd v ≠ .next t := by
  intro he
  obtain rfl := finish_next he
  simp [hrun] at hf

/-- A load faults by an access, of the width its selector names, that is invalid (R202). -/
theorem load_raises {wd : Width} {ext : Word → Word} {rd rs1 : RegIdx} {imm : BitVec 12} {f3 : BitVec 3}
    (hsel : (f3, wd.bytes) ∈ loadSelectors) (he : load wd ext rd rs1 imm s = .next t) :
    ∃ c info, t = s.raise ⟨c, info⟩ ∧ ExecRaises s (iWord imm rs1 f3 rd .load) c info := by
  rcases load_next he with ⟨-, v, rfl⟩ | ⟨hv, rfl⟩
  · simp [hrun] at hf
  · have hr := ExecRaises.read (s := s) (w := iWord imm rs1 f3 rd .load) (n := wd.bytes) (opcodeOf_iWord ..)
    simp only [funct3Of_iWord, rs1Of_iWord, iField_iWord] at hr
    exact ⟨_, _, rfl, hr hsel fun hok => hv (accessOk_iff.mp hok)⟩

/-- A store faults likewise (R203). -/
theorem store_raises {wd : Width} {rs1 rs2 : RegIdx} {imm : BitVec 12} {f3 : BitVec 3}
    (hsel : (f3, wd.bytes) ∈ storeSelectors) (he : store wd rs1 rs2 imm s = .next t) :
    ∃ c info, t = s.raise ⟨c, info⟩ ∧ ExecRaises s (sWord imm rs2 rs1 f3) c info := by
  rcases store_next he with ⟨-, rfl⟩ | ⟨hv, rfl⟩
  · simp [hrun] at hf
  · have hr := ExecRaises.write (s := s) (w := sWord imm rs2 rs1 f3) (n := wd.bytes) (opcodeOf_sWord ..)
    simp only [funct3Of_sWord, rs1Of_sWord, sField_sWord] at hr
    exact ⟨_, _, rfl, hr hsel fun hok => hv (accessOk_iff.mp hok)⟩

/-- A branch from an aligned pc faults only when it is taken, since the next word is aligned (R158, D17). -/
theorem branch_raises {cond : Word → Word → Bool} {rs1 rs2 : RegIdx} {off : BitVec 13} {f3 : BitVec 3}
    (hoff : offBOk off = true)
    (htaken : cond (s.readReg rs1) (s.readReg rs2) = true → BranchTaken s (bWord off rs2 rs1 f3))
    (he : branch cond rs1 rs2 off s = .next t) :
    ∃ c info, t = s.raise ⟨c, info⟩ ∧ ExecRaises s (bWord off rs2 rs1 f3) c info := by
  rcases transfer_next he with ⟨-, rfl⟩ | ⟨hp, rfl⟩
  · simp [hrun] at hf
  · refine ⟨_, _, rfl, .branch (opcodeOf_bWord ..) hp fun hpc => ?_⟩
    by_cases hc : cond (s.readReg rs1) (s.readReg rs2) = true
    · rw [if_pos hc, bField_bWord _ _ _ _ hoff]
      exact ⟨htaken hc, rfl⟩
    · rw [if_neg hc] at hp
      exact absurd (add_four_aligned hpc) hp

/-- JAL faults by a target that is no multiple of 4 (R204). -/
theorem jal_raises {rd : RegIdx} {off : BitVec 21} (hoff : offJOk off = true) (he : execJal rd off s = .next t) :
    ∃ c info, t = s.raise ⟨c, info⟩ ∧ ExecRaises s (jWord off rd) c info := by
  rcases jump_next he with ⟨-, rfl⟩ | ⟨hp, rfl⟩
  · simp [hrun] at hf
  · have hr := ExecRaises.jal (s := s) (w := jWord off rd) (opcodeOf_jWord ..)
    rw [jField_jWord _ _ hoff] at hr
    exact ⟨_, _, rfl, hr hp⟩

/-- JALR likewise, whatever its funct3 (R204). -/
theorem jalr_raises {w : Word} (hop : opcodeOf w = 0b1100111#7)
    (he : execJalr (rdOf w) (rs1Of w) (iField w) s = .next t) :
    ∃ c info, t = s.raise ⟨c, info⟩ ∧ ExecRaises s w c info := by
  rcases jump_next he with ⟨-, rfl⟩ | ⟨hp, rfl⟩
  · simp [hrun] at hf
  · exact ⟨_, _, rfl, .jalr hop hp⟩

/-- A syscall faults by a number outside the table (R205). -/
theorem ecall_raises {w : Word} (hop : opcodeOf w = 0b1110011#7) (he : execEcall s = .next t) :
    ∃ c info, t = s.raise ⟨c, info⟩ ∧ ExecRaises s w c info := by
  rcases ecall_next he with ⟨-, bs, rfl⟩ | ⟨-, rfl⟩ | ⟨hn, rfl⟩
  · simp [hrun] at hf
  · simp at hf
  · exact ⟨_, _, rfl, .syscall hop hn⟩

/-- A word that faults when it executes is one of the raisers. -/
theorem exec_raises {w : Word} {i : Instr} (hd : decode w = .ok i) (he : exec i s = .next t) :
    ∃ c info, t = s.raise ⟨c, info⟩ ∧ ExecRaises s w c info := by
  have hwf := decodedInstructionsAreWellFormed w i hd
  rcases decode_cases hd with ⟨hop, rfl⟩ | ⟨hop, rfl⟩ | rfl
  · exact jalr_raises hrun hf hop he
  · exact ecall_raises hrun hf hop he
  cases i
  case lb | lh | lw | lbu | lhu => exact load_raises hrun hf (by decide) he
  case sb | sh | sw => exact store_raises hrun hf (by decide) he
  case beq => exact branch_raises hrun hf hwf (fun hc => .inl ⟨by simp, by simpa using cmpEq_iff.mp hc⟩) he
  case bne => exact branch_raises hrun hf hwf (fun hc => .inr (.inl ⟨by simp, by simpa using cmpNe_iff.mp hc⟩)) he
  case blt =>
    exact branch_raises hrun hf hwf (fun hc => .inr (.inr (.inl ⟨by simp, by simpa using cmpLt_iff.mp hc⟩))) he
  case bge =>
    exact branch_raises hrun hf hwf (fun hc => .inr (.inr (.inr (.inl ⟨by simp, by simpa using cmpGe_iff.mp hc⟩)))) he
  case bltu =>
    exact branch_raises hrun hf hwf
      (fun hc => .inr (.inr (.inr (.inr (.inl ⟨by simp, by simpa using cmpLtu_iff.mp hc⟩))))) he
  case bgeu =>
    exact branch_raises hrun hf hwf
      (fun hc => .inr (.inr (.inr (.inr (.inr ⟨by simp, by simpa using cmpGeu_iff.mp hc⟩))))) he
  case jal => exact jal_raises hrun hf hwf he
  case jalr => exact jalr_raises hrun hf (opcodeOf_iWord ..) (by simpa [encode, exec] using he)
  case ecall => exact ecall_raises hrun hf (opcodeOf_iWord ..) he
  all_goals exact absurd he (finish_not_faulted hrun hf)

omit hrun in
/-- A step into FAULTED takes the fault of one of the raisers, and does nothing else. -/
theorem step_raises (hst : step s = .next t) : ∃ c info, t = s.raise ⟨c, info⟩ ∧ StepRaises s c info := by
  obtain ⟨hrun, ⟨hb, rfl⟩ | ⟨w, e, hw, hd, rfl⟩ | ⟨w, i, hw, hd, he⟩⟩ := step_next hst
  · exact ⟨_, _, rfl, .fetch hb⟩
  · exact ⟨_, _, rfl, .decode (fetch_eq_ok.mp hw) hd⟩
  · obtain ⟨c, info, ht, hr⟩ := exec_raises hrun hf hd he
    exact ⟨c, info, ht, .exec (fetch_eq_ok.mp hw) hr⟩

end Sys2Proof.Machine
end

section
/-! SUPPORT. Faults: what they change and where they come from (60_exceptions.md sections 1 and 4). -/

namespace Sys2Proof.Machine

/-- Settles O47: the next state is the old one with a fault taken, and every raiser names a cause. -/
theorem faultsArePrecise : Obligations.FaultsArePrecise := by
  intro s t hst hf
  obtain ⟨c, info, rfl, hr⟩ := step_raises hf hst
  refine ⟨rfl, fun hc => ?_⟩
  obtain rfl : c = .none := hc
  cases hr with
  | exec _ h => cases h

/-- Settles O48: the cause recorded leaves the raisers of that cause. -/
theorem eachFaultComesFromItsRaiser : Obligations.EachFaultComesFromItsRaiser := by
  intro s t hst hf
  obtain ⟨c, info, rfl, hr⟩ := step_raises hf hst
  simp only [raise_cause, raise_info]
  refine ⟨fun hc => ?_, fun hc => ?_, fun hc => ?_, fun hc => ?_, fun hc => ?_⟩ <;> subst hc
  · cases hr with
    | decode hw h => exact ⟨hw, fun i hi => nomatch h.symm.trans hi⟩
    | exec _ h => cases h
  · cases hr with
    | fetch h => exact .inl ⟨h, rfl⟩
    | exec hw h =>
      cases h with
      | read hop hn h => exact .inr ⟨_, _, hw, hop, rfl, hn, h⟩
  · cases hr with
    | exec hw h =>
      cases h with
      | write hop hn h => exact ⟨_, _, hw, hop, rfl, hn, h⟩
  · cases hr with
    | exec hw h =>
      cases h with
      | branch hop hp h => exact ⟨hp, _, hw, .inl ⟨hop, h⟩⟩
      | jal hop hp => exact ⟨hp, _, hw, .inr (.inl ⟨hop, rfl⟩)⟩
      | jalr hop hp => exact ⟨hp, _, hw, .inr (.inr ⟨hop, rfl⟩)⟩
  · cases hr with
    | exec hw h =>
      cases h with
      | syscall hop hn => exact ⟨rfl, hn, _, hw, hop⟩

end Sys2Proof.Machine
end
